-- ==== Sys2Proof/Word.lean ====
section
/-! DEFINITION. The word types of the LS-8 core (00_scope.md R9 to R13): all values are unsigned. -/

namespace Sys2Proof

/-- An 8-bit value: a register, a memory cell, an operand byte, FL (R9, R11). -/
abbrev Byte := BitVec 8

/-- A 9-bit value: the program counter and the fault record's address fields (R10, R35). -/
abbrev PcWord := BitVec 9

/-- `zext_9(v)`: an 8-bit value widened to 9 bits with zeros (R13). -/
def zext9 (v : Byte) : PcWord := v.setWidth 9

end Sys2Proof
end

