-- ==== Sys2Proof/Config.lean ====
section
/-! DEFINITION. The construction parameters N and SP_INIT (00_scope.md R7, R8; 10_state.md R33). -/

namespace Sys2Proof

/-- The parameters of one machine, fixed at construction (R33): `memSize` is N, `spInit` is SP_INIT.
The state carries them as plain data and no step changes them (log 3). -/
structure Config where
  memSize : Nat
  spInit  : Byte
  deriving DecidableEq, Repr

/-- The source's defaults: 256 cells, SP_INIT = 0xF4 (R7, R8). -/
def Config.default : Config := { memSize := 256, spInit := 0xF4#8 }

/-- The legal range `1 <= N <= 256` (R7); every 8-bit SP_INIT is legal (R8). -/
def Config.wf (c : Config) : Bool := decide (1 ≤ c.memSize) && decide (c.memSize ≤ 256)

end Sys2Proof
end

