-- ==== Sys2Proof/Syntax.lean ====
section
/-! DEFINITION. The 13 instructions (00_scope.md R2; 30_encoding.md R58, R61), operands as the encoding holds them. -/

namespace Sys2Proof

/-- One constructor per row of the opcode table, in its order (R61). An operand is the whole operand byte: any byte
value is a well-formed operand byte (R63), and a register index of 8 or more faults at execution (R18), so the index is
not narrowed here. -/
inductive Instr where
  | hlt
  | ldi (a b : Byte)
  | prn (a : Byte)
  | mul (a b : Byte)
  | add (a b : Byte)
  | push (a : Byte)
  | pop (a : Byte)
  | call (a : Byte)
  | ret
  | cmp (a b : Byte)
  | jeq (a : Byte)
  | jne (a : Byte)
  | jmp (a : Byte)
  deriving DecidableEq, Repr

end Sys2Proof
end

