-- ==== Sys2Proof/Machine/State.lean ====
section
/-! DEFINITION. Everything the spec gives the LS-8 core to hold (10_state.md R17 to R39; 60_exceptions.md R115), as plain
data, and its value after reset (70_reset_and_hazards.md R118). -/

namespace Sys2Proof.Machine

/-- The run status (R34); the 2-bit codes are `Status.code`. -/
inductive Status where
  | idle
  | running
  | halted
  | faulted
  deriving DecidableEq, Repr

/-- The five fault causes (60_exceptions.md R97). The core TAKES a fault as a next state (R105: status Faulted, fault
record written), so none of these is ever the outcome of a step: a machine in Faulted still answers next states, and only
reset leaves it. Safe: the model goes on exactly as the spec says. -/
inductive Fault where
  /-- Raised by the opcode fetch, an operand fetch or a stack access at an address of N or more (R98). Safe: taken as the
  spec says. -/
  | outOfRangeMemory
  /-- Raised by every instruction with a register operand, when the operand is 8 or more (R99). Safe: taken as the spec
  says. -/
  | outOfRangeRegister
  /-- Raised by decode for an opcode byte outside the opcode map (R100). Safe: taken as the spec says. -/
  | unknownOpcode
  /-- Raised by POP and RET when x[7] = SP_INIT (R101). Safe: taken as the spec says. -/
  | stackUnderflow
  /-- Raised by PUSH and CALL when x[7] = 0 (R102). Safe: taken as the spec says. -/
  | stackOverflow
  deriving DecidableEq, Repr

/-- Why a step is refused. -/
inductive Refusal where
  /-- Raised by an arm of `exec` for an instruction without a meaning: none is left. Safe. -/
  | notModelled (mnemonic : String)
  /-- Raised by `step` on a machine whose memory size is outside 1..256: the spec refuses it and gives it no meaning (R7;
  92_eei_decisions.md D2; 93_implementation_defined.md U5). Safe: nothing can be proved of such a machine's run. -/
  | illegalMemorySize
  deriving DecidableEq, Repr

/-- A fault being raised: `raise Fault(cause, addr)` (00_scope.md R14). -/
structure Raise where
  cause : Fault
  addr  : PcWord
  deriving DecidableEq, Repr

/-- What the host drives on the input ports at one clock edge (R115). -/
structure Pins where
  rst    : Bool
  start  : Bool
  ldWe   : Bool
  ldAddr : Byte
  ldData : Byte
  deriving DecidableEq, Repr

/-- All inputs 0. -/
def Pins.quiet : Pins := { rst := false, start := false, ldWe := false, ldAddr := 0#8, ldData := 0#8 }

/-- Memory as the list of cells that differ from 0x00, addresses rising (`Memory.wf`). -/
abbrev Memory := List Host.Cell

/-- The core's state. `cfg` and `pins` are the model's own fields: the construction parameters, which no step changes
(R33, log 3), and what the host will drive on the input ports at the coming edges, next edge first, every input 0 past
the end of the list (log 1). The rest is the spec's. -/
structure State where
  cfg      : Config
  /-- x[0] to x[7] (R17); x[7] is the stack pointer (R19). -/
  regs     : Vector Byte 8
  /-- R24. -/
  pc       : PcWord
  /-- FL: E bit 0, L bit 1, G bit 2 (R28). -/
  fl       : Byte
  /-- R36, R40. -/
  mem      : Memory
  /-- R34. -/
  status   : Status
  /-- FCAUSE, FPC, FOP, FADDR: the fault record (R35). -/
  fcause   : BitVec 3
  fpc      : PcWord
  fop      : Byte
  faddr    : PcWord
  /-- OUT (R38), oldest first. -/
  out      : List Byte
  /-- The output port's two registers (R115). -/
  outValid : Bool
  outData  : Byte
  pins     : List Pins
  deriving DecidableEq, Repr

/-- The state reset leaves in a machine built with parameters `c` (R118). R118 gives no value for out_data: 0x00 is the
model's DESIGN CHOICE (log 2). -/
def State.resetWith (c : Config) : State where
  cfg := c
  regs := #v[0x00#8, 0x00#8, 0x00#8, 0x00#8, 0x00#8, 0x00#8, 0x00#8, c.spInit]
  pc := 0#9
  fl := 0x00#8
  mem := []
  status := .idle
  fcause := 0#3
  fpc := 0#9
  fop := 0x00#8
  faddr := 0#9
  out := []
  outValid := false
  outData := 0x00#8
  pins := []

/-- The default machine right after reset, with no input pending. -/
def State.reset : State := State.resetWith Config.default

end Sys2Proof.Machine
end

