-- ==== Sys2Proof/Machine/Flags.lean ====
section
/-! DEFINITION. The ALU: add, multiply and compare (42_data_alu.md R83, R87), and the one flag an instruction reads. -/

namespace Sys2Proof.Machine

/-- `(x + y) mod 256` (R83, R86). -/
def aluAdd (x y : Byte) : Byte := BitVec.ofNat 8 (x.toNat + y.toNat)

/-- `(x * y) mod 256` (R83, R85). -/
def aluMul (x y : Byte) : Byte := BitVec.ofNat 8 (x.toNat * y.toNat)

/-- The whole of FL after CMP: E for equal, L for less, G for greater, unsigned (R87). -/
def compareFlags (x y : Byte) : Byte :=
  if x = y then 0x01#8 else if x.toNat < y.toNat then 0x02#8 else 0x04#8

/-- E, bit 0 of FL (10_state.md R28). -/
def flagE (fl : Byte) : Bool := fl.getLsbD 0

end Sys2Proof.Machine
end

