-- ==== Sys2Proof/Decode.lean ====
section
/-! DEFINITION. The opcode map (30_encoding.md R55 to R63): the decoder from bytes, and the encoder. -/

namespace Sys2Proof

/-- `op[7:6]`, the operand count of an opcode byte (R56). -/
def operandCount (op : Byte) : Nat := (op >>> 6).toNat

/-- `op[4]`, the sets-PC bit of an opcode byte (R56). -/
def setsPc (op : Byte) : Bool := op.getLsbD 4

/-- The handler lookup of the opcode map (R61, R69): by the whole opcode byte, the instruction to be completed by the
operand bytes a and b (a handler ignores the operands it does not have). The other 243 bytes have none (R62). -/
def lookup (op : Byte) : Option (Byte → Byte → Instr) :=
  match op with
  | 0x01#8 => some fun _ _ => .hlt
  | 0x82#8 => some fun a b => .ldi a b
  | 0x47#8 => some fun a _ => .prn a
  | 0xA2#8 => some fun a b => .mul a b
  | 0xA0#8 => some fun a b => .add a b
  | 0x45#8 => some fun a _ => .push a
  | 0x46#8 => some fun a _ => .pop a
  | 0x50#8 => some fun a _ => .call a
  | 0x11#8 => some fun _ _ => .ret
  | 0xA7#8 => some fun a b => .cmp a b
  | 0x55#8 => some fun a _ => .jeq a
  | 0x56#8 => some fun a _ => .jne a
  | 0x54#8 => some fun a _ => .jmp a
  | _ => none

/-- The 13 opcode bytes, in the opcode map's order (30_encoding.md R61). -/
def opcodeBytes : List Byte :=
  [0x01#8, 0x82#8, 0x47#8, 0xA2#8, 0xA0#8, 0x45#8, 0x46#8, 0x50#8, 0x11#8, 0xA7#8, 0x55#8, 0x56#8, 0x54#8]

/-- Why bytes do not decode. -/
inductive DecodeError where
  /-- There is no byte at all. -/
  | noOpcode
  /-- The first byte is none of the 13 opcodes (R62). -/
  | unknownOpcode (op : Byte)
  /-- The bytes end before the operands that `op[7:6]` asks for (R57). -/
  | truncated (op : Byte)
  deriving DecidableEq, Repr

/-- The instruction `mk` builds from the first `n` of the bytes after its opcode `op`, and the bytes after those. -/
def decodeOperands (op : Byte) (mk : Byte → Byte → Instr) (n : Nat) (bytes : List Byte) :
    Except DecodeError (Instr × List Byte) :=
  match n, bytes with
  | 0, rest => .ok (mk 0 0, rest)
  | 1, a :: rest => .ok (mk a 0, rest)
  | 2, a :: b :: rest => .ok (mk a b, rest)
  | _, _ => .error (.truncated op)

/-- The instruction at the head of a byte sequence, and the bytes after it. The length comes from the opcode byte alone
(R57) and only the operand bytes it names are taken (R60). -/
def decode (bytes : List Byte) : Except DecodeError (Instr × List Byte) :=
  match bytes with
  | [] => .error .noOpcode
  | op :: rest =>
    match lookup op with
    | none => .error (.unknownOpcode op)
    | some mk => decodeOperands op mk (operandCount op) rest

/-- The opcode byte of an instruction (R61). -/
def Instr.opcode : Instr → Byte
  | .hlt => 0x01#8
  | .ldi _ _ => 0x82#8
  | .prn _ => 0x47#8
  | .mul _ _ => 0xA2#8
  | .add _ _ => 0xA0#8
  | .push _ => 0x45#8
  | .pop _ => 0x46#8
  | .call _ => 0x50#8
  | .ret => 0x11#8
  | .cmp _ _ => 0xA7#8
  | .jeq _ => 0x55#8
  | .jne _ => 0x56#8
  | .jmp _ => 0x54#8

/-- The operand bytes of an instruction, at `ia+1` and `ia+2` (R58, R59). -/
def Instr.operandBytes : Instr → List Byte
  | .hlt => []
  | .ldi a b => [a, b]
  | .prn a => [a]
  | .mul a b => [a, b]
  | .add a b => [a, b]
  | .push a => [a]
  | .pop a => [a]
  | .call a => [a]
  | .ret => []
  | .cmp a b => [a, b]
  | .jeq a => [a]
  | .jne a => [a]
  | .jmp a => [a]

/-- The bytes of an instruction at ascending addresses: opcode, then operands (R45, R55, R58). -/
def encode (i : Instr) : List Byte := i.opcode :: i.operandBytes

/-- The three bytes of a number whose bits are numbered as the opcode table numbers them, the bits from `nbits` up being
zero: byte 0 is the least significant and lies at the lowest address (R12, R45). -/
def tableBytes (nbits w : Nat) : List Byte :=
  let v := w % 2 ^ nbits
  [BitVec.ofNat 8 v, BitVec.ofNat 8 (v / 2 ^ 8), BitVec.ofNat 8 (v / 2 ^ 16)]

/-- What `decode` reads from an opcode-table word. -/
def decodeTableWord (nbits w : Nat) : Option Instr :=
  match decode (tableBytes nbits w) with
  | .ok (i, _) => some i
  | .error _ => none

end Sys2Proof
end

