-- ==== Sys2Proof/Machine/Ops.lean ====
section
/-! DEFINITION. The primitives of 00_scope.md R14 over registers, memory, output and pc; taking a fault (60_exceptions.md
R105) and leaving it by reset; the frame around a handler (40_engine.md R73, R75). -/

namespace Sys2Proof.Machine

/-! ### Codes -/

/-- The status port's code (10_state.md R34). -/
def Status.code : Status → BitVec 2
  | .idle => 0#2
  | .running => 1#2
  | .halted => 2#2
  | .faulted => 3#2

/-- The FCAUSE code (60_exceptions.md R97). -/
def Fault.code : Fault → BitVec 3
  | .outOfRangeMemory => 1#3
  | .outOfRangeRegister => 2#3
  | .unknownOpcode => 3#3
  | .stackUnderflow => 4#3
  | .stackOverflow => 5#3

/-! ### Memory -/

/-- What a cell that nothing has written holds: reset clears every cell (70_reset_and_hazards.md R118). -/
def Memory.unlisted : Byte := 0x00#8

/-- The contents of cell `a`. -/
def Memory.read (m : Memory) (a : Nat) : Byte :=
  match m with
  | [] => Memory.unlisted
  | (k, v) :: rest => if a = k then v else Memory.read rest a

/-- Put `v` at the head of `rest` at address `a`, unless it is what an unlisted cell holds. -/
def Memory.cons (a : Nat) (v : Byte) (rest : Memory) : Memory :=
  if v = Memory.unlisted then rest else (a, v) :: rest

/-- Set cell `a` to `v`, keeping the canonical form. -/
def Memory.write (m : Memory) (a : Nat) (v : Byte) : Memory :=
  match m with
  | [] => Memory.cons a v []
  | (k, w) :: rest =>
    if a < k then Memory.cons a v ((k, w) :: rest)
    else if a = k then Memory.cons a v rest
    else (k, w) :: Memory.write rest a v

/-- Canonical from address `lo` up: addresses strictly rising, no entry equal to what an unlisted cell holds. -/
def Memory.wfFrom (lo : Nat) (m : Memory) : Bool :=
  match m with
  | [] => true
  | (k, v) :: rest => decide (lo ≤ k) && decide (v ≠ Memory.unlisted) && Memory.wfFrom (k + 1) rest

/-- The canonical form of a memory: equal memories are equal lists. -/
def Memory.wf (m : Memory) : Bool := Memory.wfFrom 0 m

/-- `MemRead(addr, 1)`: bounds check, then the cell (20_memory.md R43, R44). -/
def memRead (s : State) (addr : Nat) : Except Raise Byte :=
  if s.cfg.memSize ≤ addr then .error ⟨.outOfRangeMemory, BitVec.ofNat 9 addr⟩ else .ok (s.mem.read addr)

/-- `MemWrite(addr, 1, v)`: bounds check, then the cell (20_memory.md R43, R44). -/
def memWrite (s : State) (addr : Nat) (v : Byte) : Except Raise State :=
  if s.cfg.memSize ≤ addr then .error ⟨.outOfRangeMemory, BitVec.ofNat 9 addr⟩
  else .ok { s with mem := s.mem.write addr v }

/-! ### Registers, pc, output -/

/-- The index of the stack pointer (10_state.md R19). -/
def spIndex : Fin 8 := 7

/-- `x[i]`. -/
def State.reg (s : State) (i : Fin 8) : Byte := s.regs[i]

/-- `x[i] <- v`; no register is hardwired (10_state.md R20). -/
def State.setReg (s : State) (i : Fin 8) (v : Byte) : State := { s with regs := s.regs.set i v }

/-- `x[7]`. -/
def State.sp (s : State) : Byte := s.reg spIndex

/-- `pc <- target`. -/
def State.setPc (s : State) (target : PcWord) : State := { s with pc := target }

/-- `Emit(v)`: append to OUT and pulse the output port (10_state.md R38; 41_system_io.md R82). -/
def State.emit (s : State) (v : Byte) : State :=
  { s with out := s.out ++ [v], outValid := true, outData := v }

/-! ### The stack (43_stack_call.md R88) -/

/-- The address a push stores to: the decremented stack pointer. -/
def State.pushAddr (s : State) : Nat := (s.sp - 1#8).toNat

/-- A push of the value `v` computes from the state after the decrement. Both checks come before the first write
(00_scope.md R15; 43_stack_call.md R89, R91). -/
def push (s : State) (v : State → Byte) : Except Raise State :=
  if s.sp = 0#8 then .error ⟨.stackOverflow, zext9 s.sp⟩
  else if s.cfg.memSize ≤ s.pushAddr then .error ⟨.outOfRangeMemory, BitVec.ofNat 9 s.pushAddr⟩
  else
    let s₁ := s.setReg spIndex (s.sp - 1#8)
    memWrite s₁ s₁.sp.toNat (v s₁)

/-- The byte a pop reads, after both checks (43_stack_call.md R90, R92). -/
def popRead (s : State) : Except Raise Byte :=
  if s.sp = s.cfg.spInit then .error ⟨.stackUnderflow, zext9 s.sp⟩ else memRead s s.sp.toNat

/-- The post-increment of a pop, wrapping 0xFF to 0x00 (43_stack_call.md R88). -/
def popIncrement (s : State) : State := s.setReg spIndex (s.sp + 1#8)

/-! ### Faults -/

/-- TAKING A FAULT (60_exceptions.md R105): status Faulted and the fault record written; everything else, pc included,
keeps its value. `op` is the opcode byte fetched, 0x00 when the fetch itself faulted. -/
def takeFault (op : Byte) (e : Raise) (s : State) : State :=
  { s with status := .faulted, fcause := e.cause.code, fpc := s.pc, fop := op, faddr := e.addr }

/-- RESET, the one way out of Faulted and Halted (60_exceptions.md R106; 40_engine.md R79): every piece of state takes
its reset value (70_reset_and_hazards.md R118). The parameters and the host's coming inputs are no state of the core. -/
def applyReset (s : State) : State := { State.resetWith s.cfg with pins := s.pins }

/-! ### The frame around a handler -/

/-- The default advance: `pc <- ia + 1 + op[7:6]` when `op[4]` is 0, and nothing when it is 1 (40_engine.md R73). -/
def advance (op : Byte) (ia : PcWord) (s : State) : State :=
  if setsPc op then s else s.setPc (ia + 1#9 + BitVec.ofNat 9 (operandCount op))

/-- The end of an instruction: its handler's result with the default advance, or the fault it raised, taken on the state
before the instruction (00_scope.md R15; 40_engine.md R73, R75). -/
def complete (op : Byte) (s : State) (r : Except Raise State) : Host.Outcome State Fault Refusal :=
  match r with
  | .ok s' => .next (advance op s.pc s')
  | .error e => .next (takeFault op e s)

end Sys2Proof.Machine
end

