-- ==== Sys2Proof/Machine/Operands.lean ====
section
/-! DEFINITION. The operand forms (30_encoding.md R59): register index; immediate (the byte itself); register-indirect
target; and the return address of CALL. -/

namespace Sys2Proof.Machine

/-- A register-index operand: the whole byte, checked against 8 without masking (10_state.md R18; 40_engine.md R71). -/
def regIndex (operand : Byte) : Except Raise (Fin 8) :=
  if h : operand.toNat < 8 then .ok ⟨operand.toNat, h⟩ else .error ⟨.outOfRangeRegister, zext9 operand⟩

/-- The target a register holds: its 8 bits zero-extended into pc (44_branch.md R93). -/
def regTarget (s : State) (r : Fin 8) : PcWord := zext9 (s.reg r)

/-- The byte CALL pushes: `(ia + 2) mod 256` (43_stack_call.md R91). -/
def returnByte (ia : PcWord) : Byte := BitVec.ofNat 8 (ia.toNat + 2)

end Sys2Proof.Machine
end

