-- ==== Sys2Proof/Machine/Branch.lean ====
section
/-! DEFINITION. JMP, JEQ and JNE (44_branch.md). -/

namespace Sys2Proof.Machine

/-- JMP (R94). -/
def execJmp (a : Byte) (s : State) : Host.Outcome State Fault Refusal :=
  complete 0x54#8 s do
    let ra ← regIndex a
    return s.setPc (regTarget s ra)

/-- JEQ (R95); the register operand is checked whether or not the branch is taken (40_engine.md R71). -/
def execJeq (a : Byte) (s : State) : Host.Outcome State Fault Refusal :=
  complete 0x55#8 s do
    let ra ← regIndex a
    return s.setPc (if flagE s.fl then regTarget s ra else s.pc + 2#9)

/-- JNE (R96); the register operand is checked whether or not the branch is taken (40_engine.md R71). -/
def execJne (a : Byte) (s : State) : Host.Outcome State Fault Refusal :=
  complete 0x56#8 s do
    let ra ← regIndex a
    return s.setPc (if flagE s.fl then s.pc + 2#9 else regTarget s ra)

end Sys2Proof.Machine
end

