-- ==== Sys2Proof/Machine/DataAlu.lean ====
section
/-! DEFINITION. LDI, MUL, ADD and CMP (42_data_alu.md). -/

namespace Sys2Proof.Machine

/-- LDI (R84); the immediate b is never range-checked. -/
def execLdi (a b : Byte) (s : State) : Host.Outcome State Fault Refusal :=
  complete 0x82#8 s do
    let ra ← regIndex a
    return s.setReg ra b

/-- MUL (R85). -/
def execMul (a b : Byte) (s : State) : Host.Outcome State Fault Refusal :=
  complete 0xA2#8 s do
    let ra ← regIndex a
    let rb ← regIndex b
    return s.setReg ra (aluMul (s.reg ra) (s.reg rb))

/-- ADD (R86). -/
def execAdd (a b : Byte) (s : State) : Host.Outcome State Fault Refusal :=
  complete 0xA0#8 s do
    let ra ← regIndex a
    let rb ← regIndex b
    return s.setReg ra (aluAdd (s.reg ra) (s.reg rb))

/-- CMP (R87). -/
def execCmp (a b : Byte) (s : State) : Host.Outcome State Fault Refusal :=
  complete 0xA7#8 s do
    let ra ← regIndex a
    let rb ← regIndex b
    return { s with fl := compareFlags (s.reg ra) (s.reg rb) }

end Sys2Proof.Machine
end

