-- ==== Sys2Proof/Machine/StackCall.lean ====
section
/-! DEFINITION. PUSH, POP, CALL and RET (43_stack_call.md). Statement order is visible when a is 7
(70_reset_and_hazards.md R124). -/

namespace Sys2Proof.Machine

/-- PUSH (R89); x[a] is read after the decrement. -/
def execPush (a : Byte) (s : State) : Host.Outcome State Fault Refusal :=
  complete 0x45#8 s do
    let ra ← regIndex a
    push s fun s₁ => s₁.reg ra

/-- POP (R90); x[7] is read for the increment after the write to x[a]. -/
def execPop (a : Byte) (s : State) : Host.Outcome State Fault Refusal :=
  complete 0x46#8 s do
    let ra ← regIndex a
    let v ← popRead s
    return popIncrement (s.setReg ra v)

/-- CALL (R91); the target is read after the push. -/
def execCall (a : Byte) (s : State) : Host.Outcome State Fault Refusal :=
  complete 0x50#8 s do
    let ra ← regIndex a
    let s₁ ← push s fun _ => returnByte s.pc
    return s₁.setPc (regTarget s₁ ra)

/-- RET (R92). -/
def execRet (s : State) : Host.Outcome State Fault Refusal :=
  complete 0x11#8 s do
    let v ← popRead s
    return popIncrement (s.setPc (zext9 v))

end Sys2Proof.Machine
end

