-- ==== Sys2Proof/Machine/SystemIo.lean ====
section
/-! DEFINITION. HLT and PRN (41_system_io.md). -/

namespace Sys2Proof.Machine

/-- HLT (R81). -/
def execHlt (s : State) : Host.Outcome State Fault Refusal :=
  complete 0x01#8 s (.ok { s with status := .halted })

/-- PRN (R82). -/
def execPrn (a : Byte) (s : State) : Host.Outcome State Fault Refusal :=
  complete 0x47#8 s do
    let ra ← regIndex a
    return s.emit (s.reg ra)

end Sys2Proof.Machine
end

