-- ==== Sys2Proof/Machine/Engine.lean ====
section
/-! DEFINITION. The fetch-decode-execute engine and the clock edge around it (40_engine.md R67 to R80). -/

namespace Sys2Proof.Machine

/-- A fault raised before execution, with the opcode byte the fault record keeps: 0x00 for the fetch itself (R68). -/
abbrev FetchFault := Byte × Raise

/-- The operand at `addr` when the instruction has one there; no other operand byte is read (R70). -/
def fetchOperand (s : State) (op : Byte) (has : Bool) (addr : Nat) : Except FetchFault Byte :=
  if has then (memRead s addr).mapError fun e => (op, e) else .ok 0#8

/-- Fetch, look up the handler, fetch its operands, in this order (R68, R69, R70, R76). -/
def fetch (s : State) : Except FetchFault Instr := do
  let ia := s.pc.toNat
  let op ← (memRead s ia).mapError fun e => (0x00#8, e)
  match lookup op with
  | none => .error (op, ⟨.unknownOpcode, s.pc⟩)
  | some mk =>
    let a ← fetchOperand s op (decide (1 ≤ operandCount op)) (ia + 1)
    let b ← fetchOperand s op (decide (operandCount op = 2)) (ia + 2)
    return mk a b

/-- One step of the engine: one whole instruction, or the fault that stopped it (R67, R76). -/
def runInstr (s : State) : Host.Outcome State Fault Refusal :=
  match fetch s with
  | .error (op, e) => .next (takeFault op e s)
  | .ok i => exec i s

/-- What the ports ask for in Idle: a load write, ignored at addresses N or more, and a start; both may take effect at
one edge (R80). -/
def idleEdge (p : Pins) (s : State) : State :=
  let m := if p.ldWe && decide (p.ldAddr.toNat < s.cfg.memSize) then s.mem.write p.ldAddr.toNat p.ldData else s.mem
  { s with mem := m, status := if p.start then .running else .idle }

/-- What the host drives at the next edge. -/
def State.nextPins (s : State) : Pins := s.pins.headD Pins.quiet

/-- The start of every clock edge: the edge's inputs are consumed and `out_valid <- 0` (R80). -/
def State.beginEdge (s : State) : State := { s with pins := s.pins.tail, outValid := false }

/-- One rising clock edge (R80). -/
def clockEdge (s : State) : Host.Outcome State Fault Refusal :=
  let p := s.nextPins
  let s₀ := s.beginEdge
  if p.rst then .next (applyReset s₀)
  else
    match s₀.status with
    | .idle => .next (idleEdge p s₀)
    | .running => runInstr s₀
    | .halted => .next s₀
    | .faulted => .next s₀

/-- `bytes` stored at `addr` and up, those outside memory left out. -/
def storeBytes (n : Nat) (m : Memory) (addr : Nat) (bytes : List Byte) : Memory :=
  match bytes with
  | [] => m
  | v :: rest => storeBytes n (if addr < n then m.write addr v else m) (addr + 1) rest

/-- The next edge's inputs without a reset. -/
def withoutReset (pins : List Pins) : List Pins :=
  match pins with
  | [] => []
  | p :: rest => { p with rst := false } :: rest

end Sys2Proof.Machine
end

