-- ==== Sys2Proof/Machine/Boot.lean ====
section
/-! DEFINITION. Boot: loading an image and starting (70_reset_and_hazards.md R119 to R121). -/

namespace Sys2Proof.Machine

/-- The inputs of one load write (60_exceptions.md R115). -/
def Pins.load (addr : Nat) (v : Byte) : Pins :=
  { rst := false, start := false, ldWe := true, ldAddr := BitVec.ofNat 8 addr, ldData := v }

/-- The inputs of a start with no load write. -/
def Pins.begin : Pins := { Pins.quiet with start := true }

/-- Load writes of `image` at `addr`, `addr + 1`, …, one an edge (R121). -/
def loadPins (addr : Nat) (image : List Byte) : List Pins :=
  match image with
  | [] => []
  | v :: rest => Pins.load addr v :: loadPins (addr + 1) rest

/-- The host's inputs of a boot: load the image from address 0, then start (R121). -/
def bootPins (image : List Byte) : List Pins := loadPins 0 image ++ [Pins.begin]

/-- The launch state of a run: everything at its reset value but memory, which holds the image, and status Running
(R120). -/
def State.launch (c : Config) (image : List Byte) : State :=
  { State.resetWith c with mem := storeBytes c.memSize [] 0 image, status := .running }

end Sys2Proof.Machine
end

