-- ==== Sys2Proof/Machine/Ports.lean ====
section
/-! DEFINITION. The output ports, functions of the state that never change it (60_exceptions.md R114, R115). -/

namespace Sys2Proof.Machine

/-- The output ports (R115). -/
structure OutputPorts where
  outValid   : Bool
  outData    : Byte
  status     : BitVec 2
  faultCause : BitVec 3
  faultPc    : PcWord
  faultOp    : Byte
  faultAddr  : PcWord
  trPc       : PcWord
  trFl       : Byte
  trReg      : BitVec 64
  trIbyte    : BitVec 24
  trIvalid   : BitVec 3
  deriving DecidableEq, Repr

/-- Whether the trace byte at `pc + k` exists. -/
def State.traceValid (s : State) (k : Nat) : Bool := decide (s.pc.toNat + k < s.cfg.memSize)

/-- The trace byte at `pc + k`: 0x00 where it does not exist, and no fault (R114). -/
def State.traceByte (s : State) (k : Nat) : Byte := if s.traceValid k then s.mem.read (s.pc.toNat + k) else 0x00#8

/-- `v` in bits `k + n - 1 .. k` of a port of width `w`, zeros elsewhere. -/
def lane (w k : Nat) {n : Nat} (v : BitVec n) : BitVec w := v.setWidth w <<< k

/-- x[i] in bits 8i+7..8i (R115). -/
def State.traceRegs (s : State) : BitVec 64 :=
  lane 64 0 (s.reg 0) ||| lane 64 8 (s.reg 1) ||| lane 64 16 (s.reg 2) ||| lane 64 24 (s.reg 3) |||
  lane 64 32 (s.reg 4) ||| lane 64 40 (s.reg 5) ||| lane 64 48 (s.reg 6) ||| lane 64 56 (s.reg 7)

/-- M[pc+k] in bits 8k+7..8k (R115). -/
def State.traceBytes (s : State) : BitVec 24 :=
  lane 24 0 (s.traceByte 0) ||| lane 24 8 (s.traceByte 1) ||| lane 24 16 (s.traceByte 2)

/-- Bit k is 1 when `pc + k < N` (R115). -/
def State.traceValids (s : State) : BitVec 3 :=
  lane 3 0 (BitVec.ofBool (s.traceValid 0)) ||| lane 3 1 (BitVec.ofBool (s.traceValid 1)) |||
  lane 3 2 (BitVec.ofBool (s.traceValid 2))

/-- The ports between two clock edges (R114, R115). -/
def State.ports (s : State) : OutputPorts where
  outValid := s.outValid
  outData := s.outData
  status := s.status.code
  faultCause := s.fcause
  faultPc := s.fpc
  faultOp := s.fop
  faultAddr := s.faddr
  trPc := s.pc
  trFl := s.fl
  trReg := s.traceRegs
  trIbyte := s.traceBytes
  trIvalid := s.traceValids

end Sys2Proof.Machine
end

