-- ==== Sys2Proof/Machine/Step.lean ====
section
/-! DEFINITION. The step of the model: one clock edge of a machine with a legal memory size (40_engine.md R80). -/

namespace Sys2Proof.Machine

/-- One clock edge. A memory size outside 1..256 is refused (00_scope.md R7; 92_eei_decisions.md D2). -/
def step (s : State) : Host.Outcome State Fault Refusal :=
  if s.cfg.wf then clockEdge s else .refused .illegalMemorySize

/-- `s` with an instruction where the next step fetches: its bytes at pc, status Running as after a start, and no reset
at the next edge (log 5). -/
def State.withFetchWord (s : State) (nbits w : Nat) : State :=
  { s with
    mem := storeBytes s.cfg.memSize s.mem s.pc.toNat (tableBytes nbits w)
    status := .running
    pins := withoutReset s.pins }

end Sys2Proof.Machine
end

