-- ==== Sys2Proof/Safety.lean ====
section
/-! DEFINITION. What counts as a safe run: the next state of an outcome, when an edge executes an instruction, and the
invariant of the machine. -/

namespace Sys2Proof.Machine

/-- The next state of an outcome, if it is one. -/
def nextOf (o : Host.Outcome State Fault Refusal) : Option State :=
  match o with
  | .next s => some s
  | .fault _ => none
  | .refused _ => none

/-- The next clock edge executes an instruction: legal memory size, status Running, no reset (40_engine.md R67, R80). -/
abbrev State.Executes (s : State) : Prop :=
  s.cfg.wf = true ∧ s.status = .running ∧ s.nextPins.rst = false

/-- The next clock edge carries no reset, on a machine of legal memory size. -/
abbrev State.NoReset (s : State) : Prop := s.cfg.wf = true ∧ s.nextPins.rst = false

/-- N is legal, and memory is in canonical form and lists only addresses below N (00_scope.md R7; 20_memory.md R40). -/
abbrev State.MemoryOk (s : State) : Prop :=
  s.cfg.wf = true ∧ s.mem.wf = true ∧ ∀ c ∈ s.mem, c.1 < s.cfg.memSize

/-- pc is an 8-bit target or the address after a default advance, at most N (10_state.md R24, R26; 40_engine.md R74). -/
abbrev State.PcOk (s : State) : Prop := s.pc.toNat ≤ max s.cfg.memSize 255

/-- FL is 0x00 until the first CMP, then exactly one of E, L, G (10_state.md R28, R29, R31). -/
abbrev State.FlagsOk (s : State) : Prop := s.fl = 0x00#8 ∨ s.fl = 0x01#8 ∨ s.fl = 0x02#8 ∨ s.fl = 0x04#8

/-- The fault record is all zero exactly outside Faulted; in Faulted it holds one of the five codes, the pc that is still
there, and an address of at most 257 (10_state.md R35; 60_exceptions.md R97, R105). -/
abbrev State.FaultRecordOk (s : State) : Prop :=
  (s.status ≠ .faulted → s.fcause = 0#3 ∧ s.fpc = 0#9 ∧ s.fop = 0x00#8 ∧ s.faddr = 0#9) ∧
  (s.status = .faulted →
    1 ≤ s.fcause.toNat ∧ s.fcause.toNat ≤ 5 ∧ s.fpc = s.pc ∧ s.faddr.toNat ≤ 257)

/-- While out_valid is 1 the core is Running and out_data is the newest value of OUT (40_engine.md R80; 41_system_io.md
R82). -/
abbrev State.OutputOk (s : State) : Prop :=
  s.outValid = true → s.status = .running ∧ s.out.getLast? = some s.outData

/-- In Idle nothing has executed since reset: pc, FL, the registers and OUT hold their reset values (40_engine.md R79;
70_reset_and_hazards.md R118). -/
abbrev State.IdleOk (s : State) : Prop :=
  s.status = .idle →
    s.pc = 0#9 ∧ s.fl = 0x00#8 ∧ s.out = [] ∧ s.regs = (State.resetWith s.cfg).regs

/-- The invariant of the machine: it holds after reset and every step keeps it. -/
structure State.Inv (s : State) : Prop where
  memory : s.MemoryOk
  pc : s.PcOk
  flags : s.FlagsOk
  faultRecord : s.FaultRecordOk
  output : s.OutputOk
  idle : s.IdleOk

end Sys2Proof.Machine
end

