-- ==== Sys2Proof/WellFormed.lean ====
section
/-! DEFINITION. The check on an instruction's operands: the opcode table's "register index, must be < 8". -/

namespace Sys2Proof

/-- The operands of an instruction that are register indices, in the order a, b (40_engine.md R71). -/
def Instr.registerOperands : Instr → List Byte
  | .hlt => []
  | .ldi a _ => [a]
  | .prn a => [a]
  | .mul a b => [a, b]
  | .add a b => [a, b]
  | .push a => [a]
  | .pop a => [a]
  | .call a => [a]
  | .ret => []
  | .cmp a b => [a, b]
  | .jeq a => [a]
  | .jne a => [a]
  | .jmp a => [a]

/-- Every register operand names a register, 0 to 7 (10_state.md R17, R18). An instruction that fails this check is
still encoded, decoded and run: it takes OUT_OF_RANGE_REGISTER (R63, R71; log 4). -/
def Instr.wellFormed (i : Instr) : Bool := i.registerOperands.all fun r => decide (r.toNat < 8)

end Sys2Proof
end

