-- ==== Sys2Proof/Certificates/Slice0/Obligations.lean ====
section
/-! DEFINITION. The statements for the provers, in the order of OBLIGATIONS.json. Each docstring names the rule it
formalises; where it rests on a mark of the spec ([derived: …]) or on an entry of the model's log it says so. -/

namespace Sys2Proof.Claims

open Sys2Proof.Machine

/-- What every clock edge does first (40_engine.md R80): out_valid is 0, out_data as it was; and the edge's inputs are consumed
from `pins`, the model's own field (log 1). -/
def edge (s : State) : State := { s with pins := s.pins.tail, outValid := false }

/-- The state a fault leaves: status, FCAUSE, FPC, FOP and FADDR written, nothing else. -/
def faulted (s : State) (code : BitVec 3) (op : Byte) (addr : PcWord) : State :=
  { s with status := .faulted, fcause := code, fpc := s.pc, fop := op, faddr := addr }

/-- The cells at `addr`, `addr + 1`, … up to the last one of memory. -/
def cellsFrom (s : State) (addr : Nat) : List Byte :=
  (List.range (s.cfg.memSize - addr)).map fun k => s.mem.read (addr + k)

/-- With opcode `op` at pc, the first of the operand addresses pc+1, …, pc+count that lies outside memory faults
OUT_OF_RANGE_MEMORY. (pc is inside memory, so it is pc+k exactly when N = pc+k.) -/
def operandFetchFaults (op : Byte) (count : Nat) : Prop :=
  ∀ (s : State) (k : Nat), s.Executes → s.pc.toNat < s.cfg.memSize → s.mem.read s.pc.toNat = op →
    1 ≤ k → k ≤ count → s.cfg.memSize = s.pc.toNat + k →
    step s = .next (faulted (edge s) 1#3 op (BitVec.ofNat 9 (s.pc.toNat + k)))

/-- The registers an instruction may write (10_state.md R22, its last column). -/
def mayWrite (i : Instr) (r : Fin 8) : Prop :=
  match i with
  | .hlt => False
  | .ldi a _ => a.toNat = r.val
  | .prn _ => False
  | .mul a _ => a.toNat = r.val
  | .add a _ => a.toNat = r.val
  | .push _ => r = 7
  | .pop a => a.toNat = r.val ∨ r = 7
  | .call _ => r = 7
  | .ret => r = 7
  | .cmp _ _ => False
  | .jeq _ => False
  | .jne _ => False
  | .jmp _ => False

end Sys2Proof.Claims

open Sys2Proof Sys2Proof.Machine Sys2Proof.Claims

/-! ### Encoding -/

/-- The decoder takes exactly the encodings: bytes decode to `i` with `rest` left over if and only if they are the
encoding of `i` followed by `rest`. So encoding then decoding gives every instruction back, with every operand byte, and
no other bytes decode to it (30_encoding.md R55, R57 to R61, R63). -/
def Obligations.DecodeTakesExactlyTheEncodings : Prop :=
  ∀ (bytes rest : List Byte) (i : Instr), decode bytes = .ok (i, rest) ↔ bytes = encode i ++ rest

/-- Every rejection, by name: no bytes at all; a first byte outside the 13 opcodes; fewer operand bytes than `op[7:6]`
(30_encoding.md R57, R62). -/
def Obligations.DecodeRejectsByName : Prop :=
  ∀ (bytes : List Byte) (op : Byte),
    (decode bytes = .error .noOpcode ↔ bytes = []) ∧
    (decode bytes = .error (.unknownOpcode op) ↔ ∃ rest, bytes = op :: rest ∧ op ∉ opcodeBytes) ∧
    (decode bytes = .error (.truncated op) ↔
      ∃ rest, bytes = op :: rest ∧ op ∈ opcodeBytes ∧ rest.length < (op >>> 6).toNat)

/-- Words written out bit by bit from the opcode map decode to what they stand for, one of each format (30_encoding.md
R58, R61, R65). -/
def Obligations.WrittenWordsDecode : Prop :=
  decode [0b00000001#8] = .ok (.hlt, []) ∧
  decode [0b10000010#8, 0b00000000#8, 0b00001010#8] = .ok (.ldi 0x00#8 0x0A#8, []) ∧
  decode [0b01000111#8, 0b00000000#8] = .ok (.prn 0x00#8, []) ∧
  decode [0b10100111#8, 0b00000001#8, 0b00000011#8] = .ok (.cmp 0x01#8 0x03#8, []) ∧
  decode [0b01010000#8, 0b00000001#8] = .ok (.call 0x01#8, []) ∧
  decode [0b01010110#8, 0b00000100#8] = .ok (.jne 0x04#8, [])

/-! ### The engine and the clock edge -/

/-- A step runs the decoded instruction: when the cells from pc on decode to `i`, the next edge is `exec i` on the state
with the edge's inputs consumed and out_valid 0 (40_engine.md R68 to R72, R80). -/
def Obligations.StepRunsTheDecodedInstruction : Prop :=
  ∀ (s : State) (i : Instr) (rest : List Byte), s.Executes →
    decode (cellsFrom s s.pc.toNat) = .ok (i, rest) → step s = exec i (edge s)

/-- An opcode fetch at `pc >= N` faults OUT_OF_RANGE_MEMORY with FOP 0x00 and FADDR = pc (40_engine.md R68; 60_exceptions.md
R98). -/
def Obligations.FetchOutsideMemoryFaults : Prop :=
  ∀ s : State, s.Executes → s.cfg.memSize ≤ s.pc.toNat → step s = .next (faulted (edge s) 1#3 0x00#8 s.pc)

/-- 30_encoding.md R62 and 60_exceptions.md R100: fetching any of the 243 opcode bytes outside the map, among them 0x00
and every byte with `op[7:6] = 3`, faults UNKNOWN_OPCODE with FADDR = ia and FOP = the byte. -/
def Obligations.UnlistedOpcodeFaults : Prop :=
  (opcodeBytes.Nodup ∧ opcodeBytes.length = 256 - 243 ∧ 0x00#8 ∉ opcodeBytes ∧
    ∀ op : Byte, op.extractLsb' 6 2 = 3#2 → op ∉ opcodeBytes) ∧
  ∀ s : State, s.Executes → s.pc.toNat < s.cfg.memSize → s.mem.read s.pc.toNat ∉ opcodeBytes →
    step s = .next (faulted (edge s) 3#3 (s.mem.read s.pc.toNat) s.pc)

/-- 40_engine.md R71 and 60_exceptions.md R99: the first register operand of 8 or more, in the order a, b, faults
OUT_OF_RANGE_REGISTER with FADDR = the operand, whatever FL and the stack hold. -/
def Obligations.RegisterOperandsAreChecked : Prop :=
  ∀ (i : Instr) (s : State) (r : Byte), i.registerOperands.find? (fun x => decide (8 ≤ x.toNat)) = some r →
    exec i s = .next (faulted s 2#3 i.opcode (r.setWidth 9))

/-- 40_engine.md R73: an instruction that does not fault and whose opcode has bit 4 clear leaves pc at
`ia + 1 + op[7:6]`. -/
def Obligations.DefaultAdvanceComesFromOpcodeBits : Prop :=
  ∀ (i : Instr) (s t : State), s.status ≠ .faulted → exec i s = .next t → t.status ≠ .faulted →
    i.opcode.getLsbD 4 = false → t.pc = s.pc + 1#9 + BitVec.ofNat 9 (i.opcode.extractLsb' 6 2).toNat

/-- 60_exceptions.md R106: Faulted is terminal, and Halted with it (40_engine.md R79): no instruction runs and nothing
changes without a reset; a reset leads to Idle. -/
def Obligations.HaltedAndFaultedAreLeftOnlyByReset : Prop :=
  ∀ s : State, s.cfg.wf = true → (s.status = .halted ∨ s.status = .faulted) →
    (s.nextPins.rst = false → step s = .next (edge s)) ∧
    (s.nextPins.rst = true → ∃ t, step s = .next t ∧ t.status = .idle)

/-- In Idle an edge writes the loaded byte if its address is below N and enters Running if start is 1, both at one edge;
no fault, nothing else (40_engine.md R80; 60_exceptions.md R103). -/
def Obligations.IdleEdgeLoadsAndStarts : Prop :=
  ∀ s : State, s.NoReset → s.status = .idle →
    step s = .next { edge s with
      mem := if s.nextPins.ldWe = true ∧ s.nextPins.ldAddr.toNat < s.cfg.memSize
        then s.mem.write s.nextPins.ldAddr.toNat s.nextPins.ldData else s.mem
      status := if s.nextPins.start = true then .running else .idle }

/-- 70_reset_and_hazards.md R118: an edge with rst = 1, in any state, leaves every value of the table. (out_data, which
the table does not list, is left out: log 2.) -/
def Obligations.ResetSetsEveryListedValue : Prop :=
  ∀ s : State, s.cfg.wf = true → s.nextPins.rst = true →
    ∃ t, step s = .next t ∧ t.status = .idle ∧ t.pc = 0#9 ∧ (∀ r : Fin 8, r ≠ 7 → t.reg r = 0x00#8) ∧
      t.reg 7 = s.cfg.spInit ∧ t.fl = 0x00#8 ∧ (∀ addr, t.mem.read addr = 0x00#8) ∧
      t.fcause = 0#3 ∧ t.fpc = 0#9 ∧ t.fop = 0x00#8 ∧ t.faddr = 0#9 ∧ t.out = [] ∧ t.outValid = false

/-- Every step of a machine with 1 to 256 cells answers a next state; any other size is refused (00_scope.md R7 and the
spec's decision D2). That N is a field of State is the model's choice (log 3). -/
def Obligations.StepAnswersExactlyForLegalSizes : Prop :=
  ∀ s : State,
    (1 ≤ s.cfg.memSize ∧ s.cfg.memSize ≤ 256 → ∃ t, step s = .next t) ∧
    (¬(1 ≤ s.cfg.memSize ∧ s.cfg.memSize ≤ 256) → step s = .refused .illegalMemorySize)

/-- Every step keeps the invariant of Safety.lean: memory canonical and within N, pc at most max(N, 255), FL one of its
four values, the fault record zero exactly outside Faulted, the output port in agreement with OUT, Idle at its reset
values. -/
def Obligations.StepKeepsTheInvariant : Prop :=
  ∀ s t : State, s.Inv → step s = .next t → t.Inv

/-- The invariant holds in the state reset leaves, for every legal size, every SP_INIT and whatever the host will
drive in `pins`, the model's own field (log 1). -/
def Obligations.ResetMeetsTheInvariant : Prop :=
  ∀ (c : Config) (pins : List Pins), c.wf = true → State.Inv { State.resetWith c with pins := pins }

/-- The invariant holds in every launch state of a run (70_reset_and_hazards.md R120, which the spec marks derived). -/
def Obligations.LaunchMeetsTheInvariant : Prop :=
  ∀ (c : Config) (image : List Byte), c.wf = true → (State.launch c image).Inv

/-- 60_exceptions.md R105: when a step ends in Faulted, it wrote status, FCAUSE, FPC = ia, FOP = the opcode byte at ia
(0x00 when the fetch faulted) and FADDR, and nothing else; the status port shows 3. -/
def Obligations.FaultEntryIsPrecise : Prop :=
  ∀ s t : State, s.Executes → step s = .next t → t.status = .faulted →
    (∃ (cause : Fault) (addr : PcWord),
      t = faulted (edge s) cause.code (if s.cfg.memSize ≤ s.pc.toNat then 0x00#8 else s.mem.read s.pc.toNat) addr) ∧
    t.ports.status = 3#2

/-- 10_state.md R33: N and SP_INIT are fixed at construction; no step writes them. -/
def Obligations.StepNeverWritesTheParameters : Prop :=
  ∀ s t : State, step s = .next t → t.cfg.memSize = s.cfg.memSize ∧ t.cfg.spInit = s.cfg.spInit

/-- OUT grows exactly with out_valid: without a reset, a step appends out_data if it leaves out_valid 1 and nothing
otherwise, and it leaves out_valid 1 exactly when it executed a PRN of a register (10_state.md R38; 40_engine.md R80;
41_system_io.md R82). -/
def Obligations.OutGrowsExactlyWithOutValid : Prop :=
  ∀ s t : State, s.NoReset → step s = .next t →
    t.out = s.out ++ (if t.outValid then [t.outData] else []) ∧
    (t.outValid = true ↔ s.status = .running ∧ s.pc.toNat + 1 < s.cfg.memSize ∧
      s.mem.read s.pc.toNat = 0x47#8 ∧ (s.mem.read (s.pc.toNat + 1)).toNat < 8)

/-- 60_exceptions.md R114, with the codes of 10_state.md R34: the ports show pc, FL, the registers (x[i] in bits
8i+7..8i), the fault record and the three bytes at pc, pc+1, pc+2; a byte beyond memory reads 0x00 with valid bit 0. -/
def Obligations.PortsShowTheState : Prop :=
  ∀ s : State,
    s.ports.trPc = s.pc ∧ s.ports.trFl = s.fl ∧
    (∀ r : Fin 8, s.ports.trReg.extractLsb' (8 * r.val) 8 = s.reg r) ∧
    (∀ k : Fin 3, s.ports.trIbyte.extractLsb' (8 * k.val) 8 =
        (if s.pc.toNat + k.val < s.cfg.memSize then s.mem.read (s.pc.toNat + k.val) else 0x00#8) ∧
      s.ports.trIvalid.getLsbD k.val = decide (s.pc.toNat + k.val < s.cfg.memSize)) ∧
    s.ports.faultCause = s.fcause ∧ s.ports.faultPc = s.fpc ∧ s.ports.faultOp = s.fop ∧ s.ports.faultAddr = s.faddr ∧
    s.ports.outValid = s.outValid ∧ (s.outValid = true → s.ports.outData = s.outData) ∧
    (s.status = .idle → s.ports.status = 0#2) ∧ (s.status = .running → s.ports.status = 1#2) ∧
    (s.status = .halted → s.ports.status = 2#2) ∧ (s.status = .faulted → s.ports.status = 3#2)

/-- Boot (70_reset_and_hazards.md R121): from reset, the host's load writes of an image of at most N bytes, one an edge,
and then a start lead to the launch state of R120 (which the spec marks derived). The inputs
stand in `pins`, the model's own field (log 1). -/
def Obligations.BootReachesTheLaunchState : Prop :=
  ∀ (c : Config) (image : List Byte), c.wf = true → image.length ≤ c.memSize →
    Host.Core.run Sys2Proof.core (image.length + 1) ({ State.resetWith c with pins := bootPins image } : State) =
      .next (State.launch c image)

/-! ### The instructions -/

/-- 41_system_io.md R81: HLT's encoding; status Halted, pc ia+1, nothing else; and no instruction after it: Halted
changes nothing without a reset, whatever memory holds. -/
def Obligations.HltHaltsForGood : Prop :=
  encode .hlt = [0x01#8] ∧
  (∀ s : State, exec .hlt s = .next { s with status := .halted, pc := s.pc + 1#9 }) ∧
  (∀ s : State, s.Executes → s.pc.toNat < s.cfg.memSize → s.mem.read s.pc.toNat = 0x01#8 →
    step s = .next { edge s with status := .halted, pc := s.pc + 1#9 }) ∧
  (∀ s : State, s.NoReset → s.status = .halted → step s = .next (edge s))

/-- PRN (41_system_io.md R82; its decimal text is the host's, 00_scope.md R6): OUT gets x[a], the output port pulses,
pc ia+2, nothing else; its faults. -/
def Obligations.PrnEmitsARegister : Prop :=
  (∀ a : Byte, encode (.prn a) = [0x47#8, a]) ∧
  (∀ (s : State) (a : Byte) (h : a.toNat < 8),
    exec (.prn a) s = .next { s with
      out := s.out ++ [s.regs[a.toNat]], outValid := true, outData := s.regs[a.toNat], pc := s.pc + 2#9 }) ∧
  (∀ (s : State) (a : Byte), 8 ≤ a.toNat → exec (.prn a) s = .next (faulted s 2#3 0x47#8 (a.setWidth 9))) ∧
  operandFetchFaults 0x47#8 1

/-- LDI (42_data_alu.md R84): x[a] <- b for every byte b, pc ia+3, nothing else; its faults. -/
def Obligations.LdiLoadsTheImmediate : Prop :=
  (∀ a b : Byte, encode (.ldi a b) = [0x82#8, a, b]) ∧
  (∀ (s : State) (a b : Byte) (h : a.toNat < 8),
    exec (.ldi a b) s = .next { s with regs := s.regs.set a.toNat b, pc := s.pc + 3#9 }) ∧
  (∀ (s : State) (a b : Byte), 8 ≤ a.toNat → exec (.ldi a b) s = .next (faulted s 2#3 0x82#8 (a.setWidth 9))) ∧
  operandFetchFaults 0x82#8 2

/-- MUL (42_data_alu.md R85, R83): x[a] <- (x[a] * x[b]) mod 256, pc ia+3, nothing else, no flag; its faults. -/
def Obligations.MulMultipliesModulo256 : Prop :=
  (∀ a b : Byte, encode (.mul a b) = [0xA2#8, a, b]) ∧
  (∀ (s : State) (a b : Byte) (h : a.toNat < 8) (k : b.toNat < 8),
    exec (.mul a b) s = .next { s with
      regs := s.regs.set a.toNat (BitVec.ofNat 8 (s.regs[a.toNat].toNat * s.regs[b.toNat].toNat % 256))
      pc := s.pc + 3#9 }) ∧
  (∀ (s : State) (a b : Byte),
    (8 ≤ a.toNat → exec (.mul a b) s = .next (faulted s 2#3 0xA2#8 (a.setWidth 9))) ∧
    (a.toNat < 8 → 8 ≤ b.toNat → exec (.mul a b) s = .next (faulted s 2#3 0xA2#8 (b.setWidth 9)))) ∧
  operandFetchFaults 0xA2#8 2

/-- ADD (42_data_alu.md R86, R83): x[a] <- (x[a] + x[b]) mod 256, pc ia+3, nothing else, no flag; its faults. -/
def Obligations.AddAddsModulo256 : Prop :=
  (∀ a b : Byte, encode (.add a b) = [0xA0#8, a, b]) ∧
  (∀ (s : State) (a b : Byte) (h : a.toNat < 8) (k : b.toNat < 8),
    exec (.add a b) s = .next { s with
      regs := s.regs.set a.toNat (BitVec.ofNat 8 ((s.regs[a.toNat].toNat + s.regs[b.toNat].toNat) % 256))
      pc := s.pc + 3#9 }) ∧
  (∀ (s : State) (a b : Byte),
    (8 ≤ a.toNat → exec (.add a b) s = .next (faulted s 2#3 0xA0#8 (a.setWidth 9))) ∧
    (a.toNat < 8 → 8 ≤ b.toNat → exec (.add a b) s = .next (faulted s 2#3 0xA0#8 (b.setWidth 9)))) ∧
  operandFetchFaults 0xA0#8 2

/-- CMP (42_data_alu.md R87): FL <- 0x01, 0x02 or 0x04 for equal, less, greater (unsigned), pc ia+3, nothing else; its
faults. -/
def Obligations.CmpSetsExactlyOneFlag : Prop :=
  (∀ a b : Byte, encode (.cmp a b) = [0xA7#8, a, b]) ∧
  (∀ (s : State) (a b : Byte) (h : a.toNat < 8) (k : b.toNat < 8),
    exec (.cmp a b) s = .next { s with
      fl := if s.regs[a.toNat].toNat = s.regs[b.toNat].toNat then 0x01#8
        else if s.regs[a.toNat].toNat < s.regs[b.toNat].toNat then 0x02#8 else 0x04#8
      pc := s.pc + 3#9 }) ∧
  (∀ (s : State) (a b : Byte),
    (8 ≤ a.toNat → exec (.cmp a b) s = .next (faulted s 2#3 0xA7#8 (a.setWidth 9))) ∧
    (a.toNat < 8 → 8 ≤ b.toNat → exec (.cmp a b) s = .next (faulted s 2#3 0xA7#8 (b.setWidth 9)))) ∧
  operandFetchFaults 0xA7#8 2

/-- PUSH (43_stack_call.md R89): x[7] decremented, the cell there gets x[a] as read after the decrement, pc ia+2, nothing
else; its faults in their order. -/
def Obligations.PushStoresBelowTheStackPointer : Prop :=
  (∀ a : Byte, encode (.push a) = [0x45#8, a]) ∧
  (∀ (s : State) (a : Byte) (h : a.toNat < 8), s.regs[7] ≠ 0x00#8 → s.regs[7].toNat - 1 < s.cfg.memSize →
    exec (.push a) s = .next { s with
      regs := s.regs.set 7 (s.regs[7] - 1#8)
      mem := s.mem.write (s.regs[7].toNat - 1) (s.regs.set 7 (s.regs[7] - 1#8))[a.toNat]
      pc := s.pc + 2#9 }) ∧
  (∀ (s : State) (a : Byte),
    (8 ≤ a.toNat → exec (.push a) s = .next (faulted s 2#3 0x45#8 (a.setWidth 9))) ∧
    (a.toNat < 8 → s.regs[7] = 0x00#8 → exec (.push a) s = .next (faulted s 5#3 0x45#8 0#9)) ∧
    (a.toNat < 8 → s.regs[7] ≠ 0x00#8 → s.cfg.memSize ≤ s.regs[7].toNat - 1 →
      exec (.push a) s = .next (faulted s 1#3 0x45#8 (BitVec.ofNat 9 (s.regs[7].toNat - 1))))) ∧
  operandFetchFaults 0x45#8 1

/-- POP (43_stack_call.md R90): x[a] <- the cell at x[7], then x[7] (as it then is) incremented modulo 256, pc ia+2,
nothing else; underflow exactly at SP_INIT; its faults in their order. -/
def Obligations.PopLoadsFromTheStackPointer : Prop :=
  (∀ a : Byte, encode (.pop a) = [0x46#8, a]) ∧
  (∀ (s : State) (a : Byte) (h : a.toNat < 8), s.regs[7] ≠ s.cfg.spInit → s.regs[7].toNat < s.cfg.memSize →
    exec (.pop a) s = .next { s with
      regs := (s.regs.set a.toNat (s.mem.read s.regs[7].toNat)).set 7
        (BitVec.ofNat 8 (((s.regs.set a.toNat (s.mem.read s.regs[7].toNat))[7].toNat + 1) % 256))
      pc := s.pc + 2#9 }) ∧
  (∀ (s : State) (a : Byte),
    (8 ≤ a.toNat → exec (.pop a) s = .next (faulted s 2#3 0x46#8 (a.setWidth 9))) ∧
    (a.toNat < 8 → s.regs[7] = s.cfg.spInit →
      exec (.pop a) s = .next (faulted s 4#3 0x46#8 (s.regs[7].setWidth 9))) ∧
    (a.toNat < 8 → s.regs[7] ≠ s.cfg.spInit → s.cfg.memSize ≤ s.regs[7].toNat →
      exec (.pop a) s = .next (faulted s 1#3 0x46#8 (s.regs[7].setWidth 9)))) ∧
  operandFetchFaults 0x46#8 1

/-- CALL (43_stack_call.md R91): pushes (ia + 2) mod 256 and jumps to x[a] as read after the push; nothing else; its
faults in their order. -/
def Obligations.CallPushesTheReturnAddress : Prop :=
  (∀ a : Byte, encode (.call a) = [0x50#8, a]) ∧
  (∀ (s : State) (a : Byte) (h : a.toNat < 8), s.regs[7] ≠ 0x00#8 → s.regs[7].toNat - 1 < s.cfg.memSize →
    exec (.call a) s = .next { s with
      regs := s.regs.set 7 (s.regs[7] - 1#8)
      mem := s.mem.write (s.regs[7].toNat - 1) (BitVec.ofNat 8 ((s.pc.toNat + 2) % 256))
      pc := (s.regs.set 7 (s.regs[7] - 1#8))[a.toNat].setWidth 9 }) ∧
  (∀ (s : State) (a : Byte),
    (8 ≤ a.toNat → exec (.call a) s = .next (faulted s 2#3 0x50#8 (a.setWidth 9))) ∧
    (a.toNat < 8 → s.regs[7] = 0x00#8 → exec (.call a) s = .next (faulted s 5#3 0x50#8 0#9)) ∧
    (a.toNat < 8 → s.regs[7] ≠ 0x00#8 → s.cfg.memSize ≤ s.regs[7].toNat - 1 →
      exec (.call a) s = .next (faulted s 1#3 0x50#8 (BitVec.ofNat 9 (s.regs[7].toNat - 1))))) ∧
  operandFetchFaults 0x50#8 1

/-- RET (43_stack_call.md R92): pc <- the cell at x[7] widened, x[7] incremented modulo 256, nothing else; its faults in
their order, none for want of an operand byte. -/
def Obligations.RetPopsTheProgramCounter : Prop :=
  encode .ret = [0x11#8] ∧
  (∀ s : State, s.regs[7] ≠ s.cfg.spInit → s.regs[7].toNat < s.cfg.memSize →
    exec .ret s = .next { s with
      regs := s.regs.set 7 (BitVec.ofNat 8 ((s.regs[7].toNat + 1) % 256))
      pc := (s.mem.read s.regs[7].toNat).setWidth 9 }) ∧
  (∀ s : State,
    (s.regs[7] = s.cfg.spInit → exec .ret s = .next (faulted s 4#3 0x11#8 (s.regs[7].setWidth 9))) ∧
    (s.regs[7] ≠ s.cfg.spInit → s.cfg.memSize ≤ s.regs[7].toNat →
      exec .ret s = .next (faulted s 1#3 0x11#8 (s.regs[7].setWidth 9))))

/-- JMP (44_branch.md R94): pc <- x[a] widened, nothing else; its faults. -/
def Obligations.JmpGoesToTheRegister : Prop :=
  (∀ a : Byte, encode (.jmp a) = [0x54#8, a]) ∧
  (∀ (s : State) (a : Byte) (h : a.toNat < 8),
    exec (.jmp a) s = .next { s with pc := s.regs[a.toNat].setWidth 9 }) ∧
  (∀ (s : State) (a : Byte), 8 ≤ a.toNat → exec (.jmp a) s = .next (faulted s 2#3 0x54#8 (a.setWidth 9))) ∧
  operandFetchFaults 0x54#8 1

/-- JEQ (44_branch.md R95): pc <- x[a] widened if FL bit 0 is 1, else ia+2; nothing else; its faults, taken or not. -/
def Obligations.JeqBranchesOnEqual : Prop :=
  (∀ a : Byte, encode (.jeq a) = [0x55#8, a]) ∧
  (∀ (s : State) (a : Byte) (h : a.toNat < 8),
    exec (.jeq a) s = .next { s with
      pc := if s.fl.getLsbD 0 = true then s.regs[a.toNat].setWidth 9 else s.pc + 2#9 }) ∧
  (∀ (s : State) (a : Byte), 8 ≤ a.toNat → exec (.jeq a) s = .next (faulted s 2#3 0x55#8 (a.setWidth 9))) ∧
  operandFetchFaults 0x55#8 1

/-- JNE (44_branch.md R96): pc <- x[a] widened if FL bit 0 is 0, else ia+2; nothing else; its faults, taken or not. -/
def Obligations.JneBranchesOnNotEqual : Prop :=
  (∀ a : Byte, encode (.jne a) = [0x56#8, a]) ∧
  (∀ (s : State) (a : Byte) (h : a.toNat < 8),
    exec (.jne a) s = .next { s with
      pc := if s.fl.getLsbD 0 = false then s.regs[a.toNat].setWidth 9 else s.pc + 2#9 }) ∧
  (∀ (s : State) (a : Byte), 8 ≤ a.toNat → exec (.jne a) s = .next (faulted s 2#3 0x56#8 (a.setWidth 9))) ∧
  operandFetchFaults 0x56#8 1

/-! ### Frames, over all instructions -/

/-- 10_state.md R29: only CMP writes FL, and it writes exactly one of 0x01 (E), 0x02 (L), 0x04 (G). -/
def Obligations.OnlyCmpWritesFlags : Prop :=
  (∀ (i : Instr) (s t : State), exec i s = .next t → (∀ a b, i ≠ .cmp a b) → t.fl = s.fl) ∧
  (∀ (s : State) (a b : Byte), a.toNat < 8 → b.toNat < 8 →
    ∃ t, exec (.cmp a b) s = .next t ∧ (t.fl = 0x01#8 ∨ t.fl = 0x02#8 ∨ t.fl = 0x04#8))

/-- The registers an instruction changes are among those R22 lists as written (10_state.md R22, which the spec marks
derived): its destination, x[7] for the stack instructions, no other. -/
def Obligations.RegistersWrittenOnlyAsListed : Prop :=
  ∀ (i : Instr) (s t : State) (r : Fin 8), exec i s = .next t → ¬ mayWrite i r → t.reg r = s.reg r

/-- Every instruction but PUSH and CALL leaves every byte of memory as it was (20_memory.md R41, which the spec marks
derived). -/
def Obligations.OnlyPushAndCallWriteMemory : Prop :=
  ∀ (i : Instr) (s t : State), exec i s = .next t → (∀ a, i ≠ .push a) → (∀ a, i ≠ .call a) →
    ∀ addr, t.mem.read addr = s.mem.read addr

/-- PUSH and CALL leave every byte of memory outside the one cell at x[7] - 1 as it was; there, unless they fault, they
store x[a] as read after the decrement (PUSH) or (ia + 2) mod 256 (CALL) (20_memory.md R41; 43_stack_call.md R89, R91). -/
def Obligations.PushAndCallStoreOneByte : Prop :=
  ∀ (s t : State) (a addr : Nat) (r : Byte), s.pushAddr = a → (exec (.push r) s = .next t ∨ exec (.call r) s = .next t) →
    (addr ≠ a → t.mem.read addr = s.mem.read addr) ∧
    (s.mem.wf = true → s.status ≠ .faulted → t.status ≠ .faulted →
      (∀ h : r.toNat < 8, exec (.push r) s = .next t →
        t.mem.read a = (s.regs.set 7 (s.regs[7] - 1#8))[r.toNat]) ∧
      (exec (.call r) s = .next t → t.mem.read a = BitVec.ofNat 8 ((s.pc.toNat + 2) % 256)))

/-- What no instruction touches but as the spec says: the parameters and the input ports never; OUT and the output port
only by PRN (10_state.md R38); status and the fault record only by HLT (status) and by taking a fault, which changes
nothing else (40_engine.md R72; 60_exceptions.md R105). -/
def Obligations.SpecialStateFrame : Prop :=
  ∀ (i : Instr) (s t : State), exec i s = .next t →
    t.cfg = s.cfg ∧ t.pins = s.pins ∧
    ((∀ a, i ≠ .prn a) → t.out = s.out ∧ t.outValid = s.outValid ∧ t.outData = s.outData) ∧
    ((∃ (cause : Fault) (addr : PcWord), t = faulted s cause.code i.opcode addr) ∨
      (t.fcause = s.fcause ∧ t.fpc = s.fpc ∧ t.fop = s.fop ∧ t.faddr = s.faddr ∧
        (i = .hlt → t.status = .halted) ∧ (i ≠ .hlt → t.status = s.status)))

/-! ### Across instructions -/

/-- FL is read by JEQ and JNE only, and bit 0 of it only (10_state.md R30, which the spec marks derived): with any other
FL (of the same bit 0, for those two) the instruction does the same to everything but FL. -/
def Obligations.FlagsReadOnlyByConditionalJumps : Prop :=
  ∀ (i : Instr) (s t : State) (f : Byte), exec i s = .next t →
    (f.getLsbD 0 = s.fl.getLsbD 0 ∨ ∀ a, i ≠ .jeq a ∧ i ≠ .jne a) →
    ∃ t', exec i { s with fl := f } = .next t' ∧ { t' with fl := t.fl } = t

/-- The only cell an instruction's effect reads is the one POP and RET pop (20_memory.md R41, which the spec marks
derived): with any other memory (that agrees on that cell, for those two) it does the same to everything but memory. -/
def Obligations.OnlyPopAndRetReadMemory : Prop :=
  ∀ (i : Instr) (s t : State) (m : Memory), exec i s = .next t →
    (m.read s.sp.toNat = s.mem.read s.sp.toNat ∨ (i ≠ .ret ∧ ∀ a, i ≠ .pop a)) →
    ∃ t', exec i { s with mem := m } = .next t' ∧ { t' with mem := t.mem } = t

/-- PUSH of a register then POP of the same one (x[7] included) leaves all eight registers as they were, unless the
pushed stack pointer is SP_INIT, where POP underflows (95_test_vectors.md P-c; 43_stack_call.md R89, R90). -/
def Obligations.PushThenPopRestoresRegisters : Prop :=
  ∀ (s : State) (a : Byte), s.mem.wf = true → a.toNat < 8 → s.regs[7] ≠ 0x00#8 → s.regs[7].toNat - 1 < s.cfg.memSize →
    s.regs[7] - 1#8 ≠ s.cfg.spInit →
    ∃ t u, exec (.push a) s = .next t ∧ exec (.pop a) t = .next u ∧ u.regs = s.regs ∧ u.pc = s.pc + 4#9

/-- CALL then RET resumes at ia + 2 (modulo 256) with all eight registers as they were (95_test_vectors.md P-d;
43_stack_call.md R91, R92). -/
def Obligations.CallThenRetResumesAfterTheCall : Prop :=
  ∀ (s : State) (a : Byte), s.mem.wf = true → a.toNat < 8 → s.regs[7] ≠ 0x00#8 → s.regs[7].toNat - 1 < s.cfg.memSize →
    s.regs[7] - 1#8 ≠ s.cfg.spInit →
    ∃ t u, exec (.call a) s = .next t ∧ exec .ret t = .next u ∧ u.regs = s.regs ∧
      u.pc.toNat = (s.pc.toNat + 2) % 256

/-- After CMP, JEQ branches if and only if the compared values are equal and JNE if and only if they are not
(95_test_vectors.md P-e; 42_data_alu.md R87; 44_branch.md R95, R96). -/
def Obligations.CompareThenBranchAgrees : Prop :=
  ∀ (s : State) (a b c : Byte) (h : a.toNat < 8) (k : b.toNat < 8) (l : c.toNat < 8),
    ∃ t, exec (.cmp a b) s = .next t ∧
      exec (.jeq c) t = .next { t with
        pc := if s.regs[a.toNat] = s.regs[b.toNat] then s.regs[c.toNat].setWidth 9 else t.pc + 2#9 } ∧
      exec (.jne c) t = .next { t with
        pc := if s.regs[a.toNat] = s.regs[b.toNat] then t.pc + 2#9 else s.regs[c.toNat].setWidth 9 }

/-- Statement order inside PUSH, POP and CALL where a is 7 (70_reset_and_hazards.md R124, the spec's decision D18):
PUSH R7 stores the decremented SP, POP R7 leaves the popped value plus 1, CALL R7 jumps to the decremented SP. -/
def Obligations.StatementOrderShowsOnRegister7 : Prop :=
  (∀ s : State, s.mem.wf = true → s.regs[7] ≠ 0x00#8 → s.regs[7].toNat - 1 < s.cfg.memSize →
    (∃ t, exec (.push 7#8) s = .next t ∧ t.regs[7] = s.regs[7] - 1#8 ∧
      t.mem.read (s.regs[7].toNat - 1) = s.regs[7] - 1#8) ∧
    (∃ t, exec (.call 7#8) s = .next t ∧ t.regs[7] = s.regs[7] - 1#8 ∧ t.pc.toNat = s.regs[7].toNat - 1)) ∧
  (∀ s : State, s.regs[7] ≠ s.cfg.spInit → s.regs[7].toNat < s.cfg.memSize →
    ∃ t, exec (.pop 7#8) s = .next t ∧ t.regs[7] = s.mem.read s.regs[7].toNat + 1#8)

/-- A byte PUSH stores into the next instruction's cell is the next opcode fetched (20_memory.md R53, which the spec marks
derived): pushing 0x01 there halts at the next edge. -/
def Obligations.PushedByteIsFetchedNext : Prop :=
  ∀ (s : State) (a : Byte) (h : a.toNat < 7), s.Executes → s.mem.wf = true → s.pc.toNat + 2 < s.cfg.memSize →
    s.mem.read s.pc.toNat = 0x45#8 → s.mem.read (s.pc.toNat + 1) = a → s.regs[7].toNat = s.pc.toNat + 3 →
    ∃ t, step s = .next t ∧ t.pc.toNat = s.pc.toNat + 2 ∧ t.mem.read t.pc.toNat = s.regs[a.toNat] ∧
      (s.regs[a.toNat] = 0x01#8 → t.nextPins.rst = false →
        step t = .next { edge t with status := .halted, pc := t.pc + 1#9 })
end

