-- ==== Sys2Proof/Laws/Decode.lean ====
section
/-! SUPPORT. The opcode map: which bytes it registers, and what it builds from them. -/

namespace Sys2Proof

/-- Everything the lookup can answer: a handler that builds, from any a and b, an instruction of the opcode it is
registered for, whose operand bytes are the first `op[7:6]` of a, b. -/
theorem lookup_builds {op : Byte} {mk : Byte → Byte → Instr} (h : lookup op = some mk) (a b : Byte) :
    (mk a b).opcode = op ∧ (mk a b).operandBytes = [a, b].take (operandCount op) := by
  unfold lookup at h
  split at h <;> cases h <;> exact ⟨rfl, rfl⟩

theorem lookup_opcode {op : Byte} {mk : Byte → Byte → Instr} (h : lookup op = some mk) (a b : Byte) :
    (mk a b).opcode = op :=
  (lookup_builds h a b).1

theorem lookup_operandBytes {op : Byte} {mk : Byte → Byte → Instr} (h : lookup op = some mk) (a b : Byte) :
    (mk a b).operandBytes = [a, b].take (operandCount op) :=
  (lookup_builds h a b).2

/-- An instruction's opcode is one of the 13 of the opcode map. -/
theorem Instr.opcode_mem (i : Instr) : i.opcode ∈ opcodeBytes := by
  cases i <;> simp [Instr.opcode, opcodeBytes]

theorem lookup_mem {op : Byte} {mk : Byte → Byte → Instr} (h : lookup op = some mk) : op ∈ opcodeBytes :=
  lookup_opcode h 0 0 ▸ Instr.opcode_mem _

/-- The lookup fails for exactly the bytes outside the opcode map (30_encoding.md R62). -/
theorem lookup_eq_none {op : Byte} : lookup op = none ↔ op ∉ opcodeBytes := by
  have registered : ∀ op ∈ opcodeBytes, (lookup op).isSome = true := by decide
  refine ⟨fun h hm => ?_, fun h => Option.eq_none_iff_forall_ne_some.2 fun _ hl => h (lookup_mem hl)⟩
  have := registered op hm
  simp [h] at this

/-- No registered opcode counts three operands (30_encoding.md R57). -/
theorem lookup_operandCount {op : Byte} {mk : Byte → Byte → Instr} (h : lookup op = some mk) :
    operandCount op = 0 ∨ operandCount op = 1 ∨ operandCount op = 2 :=
  (show ∀ op ∈ opcodeBytes, operandCount op = 0 ∨ operandCount op = 1 ∨ operandCount op = 2 by decide) op (lookup_mem h)

/-- A handler ignores the operand bytes its opcode does not count. -/
theorem lookup_ignores {op : Byte} {mk : Byte → Byte → Instr} (h : lookup op = some mk) (a b : Byte) :
    (operandCount op = 0 → mk a b = mk 0 0) ∧ (operandCount op = 1 → mk a b = mk a 0) := by
  unfold lookup at h
  split at h <;> cases h <;> simp [operandCount]

/-- Every instruction's opcode is registered, with a handler that builds it back from its operand bytes. -/
theorem lookup_of_instr (i : Instr) :
    ∃ mk, lookup i.opcode = some mk ∧ mk (i.operandBytes.getD 0 0) (i.operandBytes.getD 1 0) = i := by
  cases i <;> exact ⟨_, rfl, rfl⟩

theorem decode_unknown {op : Byte} (h : lookup op = none) (rest : List Byte) :
    decode (op :: rest) = .error (.unknownOpcode op) := by
  simp only [decode, h]

theorem decode_known {op : Byte} {mk : Byte → Byte → Instr} (h : lookup op = some mk) (rest : List Byte) :
    decode (op :: rest) = decodeOperands op mk (operandCount op) rest := by
  simp only [decode, h]

/-- Everything the operand bytes of a registered opcode can decode to. -/
theorem decodeOperands_cases (op : Byte) (mk : Byte → Byte → Instr) {n : Nat} (hn : n ≤ 2) (bytes : List Byte) :
    (bytes.length < n ∧ decodeOperands op mk n bytes = .error (.truncated op)) ∨
    (n ≤ bytes.length ∧
      ∃ a b, decodeOperands op mk n bytes = .ok (mk a b, bytes.drop n) ∧ [a, b].take n = bytes.take n) := by
  match n, hn, bytes with
  | 0, _, _ => exact .inr ⟨Nat.zero_le _, 0, 0, rfl, rfl⟩
  | 1, _, [] => exact .inl ⟨Nat.one_pos, rfl⟩
  | 1, _, a :: _ => exact .inr ⟨by simp, a, 0, rfl, rfl⟩
  | 2, _, [] => exact .inl ⟨by simp, rfl⟩
  | 2, _, [_] => exact .inl ⟨by simp, rfl⟩
  | 2, _, a :: b :: _ => exact .inr ⟨by simp, a, b, rfl, rfl⟩

end Sys2Proof
end

