-- ==== Sys2Proof/Laws/Memory.lean ====
section
/-! SUPPORT. Memory: what a write leaves in every cell, and that every memory operation keeps the canonical form. -/

namespace Sys2Proof.Machine

/-! ### Reading after writing -/

@[simp] theorem Memory.read_nil (b : Nat) : Memory.read [] b = Memory.unlisted := rfl

theorem Memory.read_cons (a : Nat) (v : Byte) (rest : Memory) (b : Nat) (h : a = b → rest.read b = Memory.unlisted) :
    (Memory.cons a v rest).read b = if b = a then v else rest.read b := by
  unfold Memory.cons
  split
  · next hv =>
    split
    · next hb => rw [h hb.symm, hv]
    · rfl
  · simp [Memory.read]

/-- A cell below every listed address holds what an unlisted cell holds. -/
theorem Memory.read_below {m : Memory} {lo b : Nat} (hm : m.wfFrom lo = true) (hb : b < lo) :
    m.read b = Memory.unlisted := by
  induction m generalizing lo with
  | nil => rfl
  | cons c rest ih =>
    obtain ⟨k, v⟩ := c
    simp only [Memory.wfFrom, Bool.and_eq_true, decide_eq_true_eq] at hm
    have : b ≠ k := by omega
    simp only [Memory.read, this, if_false]
    exact ih hm.2 (by omega)

theorem Memory.wfFrom_mono {m : Memory} {lo lo' : Nat} (hm : m.wfFrom lo = true) (h : lo' ≤ lo) :
    m.wfFrom lo' = true := by
  cases m with
  | nil => rfl
  | cons c rest =>
    obtain ⟨k, v⟩ := c
    simp only [Memory.wfFrom, Bool.and_eq_true, decide_eq_true_eq] at hm ⊢
    exact ⟨⟨by omega, hm.1.2⟩, hm.2⟩

/-- Every other cell keeps its value (20_memory.md R44), in any memory. -/
theorem Memory.read_write_other (m : Memory) {a b : Nat} (v : Byte) (h : b ≠ a) :
    (m.write a v).read b = m.read b := by
  induction m with
  | nil => rw [Memory.write, Memory.read_cons _ _ _ _ (fun _ => rfl), if_neg h]
  | cons c rest ih =>
    obtain ⟨k, w⟩ := c
    simp only [Memory.write]
    split
    · rw [Memory.read_cons _ _ _ _ (fun e => absurd e.symm h), if_neg h]
    · split
      · next _ hk =>
        subst hk
        rw [Memory.read_cons _ _ _ _ (fun e => absurd e.symm h), if_neg h]
        simp [Memory.read, h]
      · simp [Memory.read, ih]

theorem Memory.read_write_same_from {m : Memory} {lo : Nat} (hm : m.wfFrom lo = true) (a : Nat) (v : Byte) :
    (m.write a v).read a = v := by
  induction m generalizing lo with
  | nil => rw [Memory.write, Memory.read_cons _ _ _ _ (fun _ => rfl), if_pos rfl]
  | cons c rest ih =>
    obtain ⟨k, w⟩ := c
    have hm' := hm
    simp only [Memory.wfFrom, Bool.and_eq_true, decide_eq_true_eq] at hm'
    simp only [Memory.write]
    split
    · next hk =>
      have hw : Memory.wfFrom k ((k, w) :: rest) = true := by
        simp only [Memory.wfFrom, Bool.and_eq_true, decide_eq_true_eq]
        exact ⟨⟨Nat.le_refl k, hm'.1.2⟩, hm'.2⟩
      rw [Memory.read_cons _ _ _ _ (fun _ => Memory.read_below hw hk), if_pos rfl]
    · split
      · next _ hk =>
        subst hk
        rw [Memory.read_cons _ _ _ _ (fun _ => Memory.read_below hm'.2 (Nat.lt_succ_self a)), if_pos rfl]
      · next _ hk => simp [Memory.read, hk, ih hm'.2]

/-- The cell written reads back (20_memory.md R44, R50). -/
theorem Memory.read_write_same {m : Memory} (hm : m.wf = true) (a : Nat) (v : Byte) : (m.write a v).read a = v :=
  Memory.read_write_same_from hm a v

/-- What every cell holds after a write. -/
theorem Memory.read_write {m : Memory} (hm : m.wf = true) (a b : Nat) (v : Byte) :
    (m.write a v).read b = if b = a then v else m.read b := by
  split
  · next h => rw [h, Memory.read_write_same hm]
  · next h => exact Memory.read_write_other m v h

/-! ### The canonical form -/

theorem Memory.wfFrom_cons {lo a : Nat} (v : Byte) {rest : Memory} (h : lo ≤ a) (hr : rest.wfFrom (a + 1) = true) :
    (Memory.cons a v rest).wfFrom lo = true := by
  unfold Memory.cons
  split
  · exact Memory.wfFrom_mono hr (by omega)
  · next hv => simp [Memory.wfFrom, h, hv, hr]

theorem Memory.wfFrom_write {m : Memory} {lo a : Nat} (hm : m.wfFrom lo = true) (h : lo ≤ a) (v : Byte) :
    (m.write a v).wfFrom lo = true := by
  induction m generalizing lo with
  | nil => exact Memory.wfFrom_cons v h rfl
  | cons c rest ih =>
    obtain ⟨k, w⟩ := c
    have hm' := hm
    simp only [Memory.wfFrom, Bool.and_eq_true, decide_eq_true_eq] at hm'
    simp only [Memory.write]
    split
    · next hk =>
      refine Memory.wfFrom_cons v h ?_
      simp only [Memory.wfFrom, Bool.and_eq_true, decide_eq_true_eq]
      exact ⟨⟨hk, hm'.1.2⟩, hm'.2⟩
    · split
      · next _ hk => exact Memory.wfFrom_cons v h (hk ▸ hm'.2)
      · simp only [Memory.wfFrom, Bool.and_eq_true, decide_eq_true_eq]
        exact ⟨hm'.1, ih hm'.2 (by omega)⟩

/-- A write keeps the canonical form. -/
theorem Memory.wf_write {m : Memory} (hm : m.wf = true) (a : Nat) (v : Byte) : (m.write a v).wf = true :=
  Memory.wfFrom_write hm (Nat.zero_le a) v

theorem Memory.wf_nil : Memory.wf [] = true := rfl

/-- The addresses a write lists: those before, and the one written. -/
theorem Memory.mem_write {m : Memory} {a : Nat} {v : Byte} {c : Host.Cell} (h : c ∈ m.write a v) : c ∈ m ∨ c.1 = a := by
  have hc : ∀ {rest : Memory}, c ∈ Memory.cons a v rest → c ∈ rest ∨ c.1 = a := by
    intro rest h
    unfold Memory.cons at h
    split at h
    · exact .inl h
    · rcases List.mem_cons.1 h with rfl | h
      · exact .inr rfl
      · exact .inl h
  induction m with
  | nil => exact hc h
  | cons d rest ih =>
    obtain ⟨k, w⟩ := d
    simp only [Memory.write] at h
    split at h
    · exact hc h
    · split at h
      · exact (hc h).imp_left (List.mem_cons_of_mem _)
      · rcases List.mem_cons.1 h with rfl | h
        · exact .inl (List.mem_cons_self ..)
        · exact (ih h).imp_left (List.mem_cons_of_mem _)

/-- Storing bytes keeps the canonical form. -/
theorem Memory.wf_storeBytes {m : Memory} (hm : m.wf = true) (n addr : Nat) (bytes : List Byte) :
    (storeBytes n m addr bytes).wf = true := by
  induction bytes generalizing m addr with
  | nil => exact hm
  | cons v rest ih =>
    unfold storeBytes
    split
    · exact ih (Memory.wf_write hm addr v) _
    · exact ih hm _

/-- Storing bytes lists only addresses below the size. -/
theorem Memory.storeBytes_below {m : Memory} {n : Nat} (hm : ∀ c ∈ m, c.1 < n) (addr : Nat) (bytes : List Byte) :
    ∀ c ∈ storeBytes n m addr bytes, c.1 < n := by
  induction bytes generalizing m addr with
  | nil => exact hm
  | cons v rest ih =>
    unfold storeBytes
    split
    · next h => exact ih (fun c hc => (Memory.mem_write hc).elim (hm c) (fun e => e ▸ h)) _
    · exact ih hm _

end Sys2Proof.Machine
end

