-- ==== Sys2Proof/Laws/State.lean ====
section
/-! SUPPORT. What each named update leaves in each field of State: one lemma per field per update. -/

namespace Sys2Proof.Machine

/-! ### State.setReg -/

@[simp] theorem State.setReg_cfg (s : State) (i : Fin 8) (v : Byte) : (s.setReg i v).cfg = s.cfg := rfl
@[simp] theorem State.setReg_regs (s : State) (i : Fin 8) (v : Byte) : (s.setReg i v).regs = s.regs.set i v := rfl
@[simp] theorem State.setReg_pc (s : State) (i : Fin 8) (v : Byte) : (s.setReg i v).pc = s.pc := rfl
@[simp] theorem State.setReg_fl (s : State) (i : Fin 8) (v : Byte) : (s.setReg i v).fl = s.fl := rfl
@[simp] theorem State.setReg_mem (s : State) (i : Fin 8) (v : Byte) : (s.setReg i v).mem = s.mem := rfl
@[simp] theorem State.setReg_status (s : State) (i : Fin 8) (v : Byte) : (s.setReg i v).status = s.status := rfl
@[simp] theorem State.setReg_fcause (s : State) (i : Fin 8) (v : Byte) : (s.setReg i v).fcause = s.fcause := rfl
@[simp] theorem State.setReg_fpc (s : State) (i : Fin 8) (v : Byte) : (s.setReg i v).fpc = s.fpc := rfl
@[simp] theorem State.setReg_fop (s : State) (i : Fin 8) (v : Byte) : (s.setReg i v).fop = s.fop := rfl
@[simp] theorem State.setReg_faddr (s : State) (i : Fin 8) (v : Byte) : (s.setReg i v).faddr = s.faddr := rfl
@[simp] theorem State.setReg_out (s : State) (i : Fin 8) (v : Byte) : (s.setReg i v).out = s.out := rfl
@[simp] theorem State.setReg_outValid (s : State) (i : Fin 8) (v : Byte) : (s.setReg i v).outValid = s.outValid := rfl
@[simp] theorem State.setReg_outData (s : State) (i : Fin 8) (v : Byte) : (s.setReg i v).outData = s.outData := rfl
@[simp] theorem State.setReg_pins (s : State) (i : Fin 8) (v : Byte) : (s.setReg i v).pins = s.pins := rfl

/-! ### State.setPc -/

@[simp] theorem State.setPc_cfg (s : State) (target : PcWord) : (s.setPc target).cfg = s.cfg := rfl
@[simp] theorem State.setPc_regs (s : State) (target : PcWord) : (s.setPc target).regs = s.regs := rfl
@[simp] theorem State.setPc_pc (s : State) (target : PcWord) : (s.setPc target).pc = target := rfl
@[simp] theorem State.setPc_fl (s : State) (target : PcWord) : (s.setPc target).fl = s.fl := rfl
@[simp] theorem State.setPc_mem (s : State) (target : PcWord) : (s.setPc target).mem = s.mem := rfl
@[simp] theorem State.setPc_status (s : State) (target : PcWord) : (s.setPc target).status = s.status := rfl
@[simp] theorem State.setPc_fcause (s : State) (target : PcWord) : (s.setPc target).fcause = s.fcause := rfl
@[simp] theorem State.setPc_fpc (s : State) (target : PcWord) : (s.setPc target).fpc = s.fpc := rfl
@[simp] theorem State.setPc_fop (s : State) (target : PcWord) : (s.setPc target).fop = s.fop := rfl
@[simp] theorem State.setPc_faddr (s : State) (target : PcWord) : (s.setPc target).faddr = s.faddr := rfl
@[simp] theorem State.setPc_out (s : State) (target : PcWord) : (s.setPc target).out = s.out := rfl
@[simp] theorem State.setPc_outValid (s : State) (target : PcWord) : (s.setPc target).outValid = s.outValid := rfl
@[simp] theorem State.setPc_outData (s : State) (target : PcWord) : (s.setPc target).outData = s.outData := rfl
@[simp] theorem State.setPc_pins (s : State) (target : PcWord) : (s.setPc target).pins = s.pins := rfl

/-! ### State.emit -/

@[simp] theorem State.emit_cfg (s : State) (v : Byte) : (s.emit v).cfg = s.cfg := rfl
@[simp] theorem State.emit_regs (s : State) (v : Byte) : (s.emit v).regs = s.regs := rfl
@[simp] theorem State.emit_pc (s : State) (v : Byte) : (s.emit v).pc = s.pc := rfl
@[simp] theorem State.emit_fl (s : State) (v : Byte) : (s.emit v).fl = s.fl := rfl
@[simp] theorem State.emit_mem (s : State) (v : Byte) : (s.emit v).mem = s.mem := rfl
@[simp] theorem State.emit_status (s : State) (v : Byte) : (s.emit v).status = s.status := rfl
@[simp] theorem State.emit_fcause (s : State) (v : Byte) : (s.emit v).fcause = s.fcause := rfl
@[simp] theorem State.emit_fpc (s : State) (v : Byte) : (s.emit v).fpc = s.fpc := rfl
@[simp] theorem State.emit_fop (s : State) (v : Byte) : (s.emit v).fop = s.fop := rfl
@[simp] theorem State.emit_faddr (s : State) (v : Byte) : (s.emit v).faddr = s.faddr := rfl
@[simp] theorem State.emit_out (s : State) (v : Byte) : (s.emit v).out = s.out ++ [v] := rfl
@[simp] theorem State.emit_outValid (s : State) (v : Byte) : (s.emit v).outValid = true := rfl
@[simp] theorem State.emit_outData (s : State) (v : Byte) : (s.emit v).outData = v := rfl
@[simp] theorem State.emit_pins (s : State) (v : Byte) : (s.emit v).pins = s.pins := rfl

/-! ### takeFault -/

@[simp] theorem takeFault_cfg (op : Byte) (e : Raise) (s : State) : (takeFault op e s).cfg = s.cfg := rfl
@[simp] theorem takeFault_regs (op : Byte) (e : Raise) (s : State) : (takeFault op e s).regs = s.regs := rfl
@[simp] theorem takeFault_pc (op : Byte) (e : Raise) (s : State) : (takeFault op e s).pc = s.pc := rfl
@[simp] theorem takeFault_fl (op : Byte) (e : Raise) (s : State) : (takeFault op e s).fl = s.fl := rfl
@[simp] theorem takeFault_mem (op : Byte) (e : Raise) (s : State) : (takeFault op e s).mem = s.mem := rfl
@[simp] theorem takeFault_status (op : Byte) (e : Raise) (s : State) : (takeFault op e s).status = .faulted := rfl
@[simp] theorem takeFault_fcause (op : Byte) (e : Raise) (s : State) : (takeFault op e s).fcause = e.cause.code := rfl
@[simp] theorem takeFault_fpc (op : Byte) (e : Raise) (s : State) : (takeFault op e s).fpc = s.pc := rfl
@[simp] theorem takeFault_fop (op : Byte) (e : Raise) (s : State) : (takeFault op e s).fop = op := rfl
@[simp] theorem takeFault_faddr (op : Byte) (e : Raise) (s : State) : (takeFault op e s).faddr = e.addr := rfl
@[simp] theorem takeFault_out (op : Byte) (e : Raise) (s : State) : (takeFault op e s).out = s.out := rfl
@[simp] theorem takeFault_outValid (op : Byte) (e : Raise) (s : State) : (takeFault op e s).outValid = s.outValid := rfl
@[simp] theorem takeFault_outData (op : Byte) (e : Raise) (s : State) : (takeFault op e s).outData = s.outData := rfl
@[simp] theorem takeFault_pins (op : Byte) (e : Raise) (s : State) : (takeFault op e s).pins = s.pins := rfl

/-! ### State.beginEdge -/

@[simp] theorem State.beginEdge_cfg (s : State) : (s.beginEdge).cfg = s.cfg := rfl
@[simp] theorem State.beginEdge_regs (s : State) : (s.beginEdge).regs = s.regs := rfl
@[simp] theorem State.beginEdge_pc (s : State) : (s.beginEdge).pc = s.pc := rfl
@[simp] theorem State.beginEdge_fl (s : State) : (s.beginEdge).fl = s.fl := rfl
@[simp] theorem State.beginEdge_mem (s : State) : (s.beginEdge).mem = s.mem := rfl
@[simp] theorem State.beginEdge_status (s : State) : (s.beginEdge).status = s.status := rfl
@[simp] theorem State.beginEdge_fcause (s : State) : (s.beginEdge).fcause = s.fcause := rfl
@[simp] theorem State.beginEdge_fpc (s : State) : (s.beginEdge).fpc = s.fpc := rfl
@[simp] theorem State.beginEdge_fop (s : State) : (s.beginEdge).fop = s.fop := rfl
@[simp] theorem State.beginEdge_faddr (s : State) : (s.beginEdge).faddr = s.faddr := rfl
@[simp] theorem State.beginEdge_out (s : State) : (s.beginEdge).out = s.out := rfl
@[simp] theorem State.beginEdge_outValid (s : State) : (s.beginEdge).outValid = false := rfl
@[simp] theorem State.beginEdge_outData (s : State) : (s.beginEdge).outData = s.outData := rfl
@[simp] theorem State.beginEdge_pins (s : State) : (s.beginEdge).pins = s.pins.tail := rfl

/-! ### popIncrement -/

@[simp] theorem popIncrement_cfg (s : State) : (popIncrement s).cfg = s.cfg := rfl
@[simp] theorem popIncrement_regs (s : State) : (popIncrement s).regs = s.regs.set spIndex (s.sp + 1#8) := rfl
@[simp] theorem popIncrement_pc (s : State) : (popIncrement s).pc = s.pc := rfl
@[simp] theorem popIncrement_fl (s : State) : (popIncrement s).fl = s.fl := rfl
@[simp] theorem popIncrement_mem (s : State) : (popIncrement s).mem = s.mem := rfl
@[simp] theorem popIncrement_status (s : State) : (popIncrement s).status = s.status := rfl
@[simp] theorem popIncrement_fcause (s : State) : (popIncrement s).fcause = s.fcause := rfl
@[simp] theorem popIncrement_fpc (s : State) : (popIncrement s).fpc = s.fpc := rfl
@[simp] theorem popIncrement_fop (s : State) : (popIncrement s).fop = s.fop := rfl
@[simp] theorem popIncrement_faddr (s : State) : (popIncrement s).faddr = s.faddr := rfl
@[simp] theorem popIncrement_out (s : State) : (popIncrement s).out = s.out := rfl
@[simp] theorem popIncrement_outValid (s : State) : (popIncrement s).outValid = s.outValid := rfl
@[simp] theorem popIncrement_outData (s : State) : (popIncrement s).outData = s.outData := rfl
@[simp] theorem popIncrement_pins (s : State) : (popIncrement s).pins = s.pins := rfl

/-! ### applyReset -/

@[simp] theorem applyReset_cfg (s : State) : (applyReset s).cfg = s.cfg := rfl
@[simp] theorem applyReset_regs (s : State) : (applyReset s).regs = (State.resetWith s.cfg).regs := rfl
@[simp] theorem applyReset_pc (s : State) : (applyReset s).pc = 0#9 := rfl
@[simp] theorem applyReset_fl (s : State) : (applyReset s).fl = 0x00#8 := rfl
@[simp] theorem applyReset_mem (s : State) : (applyReset s).mem = [] := rfl
@[simp] theorem applyReset_status (s : State) : (applyReset s).status = .idle := rfl
@[simp] theorem applyReset_fcause (s : State) : (applyReset s).fcause = 0#3 := rfl
@[simp] theorem applyReset_fpc (s : State) : (applyReset s).fpc = 0#9 := rfl
@[simp] theorem applyReset_fop (s : State) : (applyReset s).fop = 0x00#8 := rfl
@[simp] theorem applyReset_faddr (s : State) : (applyReset s).faddr = 0#9 := rfl
@[simp] theorem applyReset_out (s : State) : (applyReset s).out = [] := rfl
@[simp] theorem applyReset_outValid (s : State) : (applyReset s).outValid = false := rfl
@[simp] theorem applyReset_outData (s : State) : (applyReset s).outData = 0x00#8 := rfl
@[simp] theorem applyReset_pins (s : State) : (applyReset s).pins = s.pins := rfl

/-! ### Reading a register back -/

@[simp] theorem State.reg_setReg_same (s : State) (i : Fin 8) (v : Byte) : (s.setReg i v).reg i = v := by
  simp [State.reg]

theorem State.reg_setReg_other (s : State) {i j : Fin 8} (v : Byte) (h : j ≠ i) : (s.setReg i v).reg j = s.reg j := by
  have : i.val ≠ j.val := fun e => h (Fin.ext e.symm)
  simp [State.reg, this]

theorem State.reg_setReg (s : State) (i j : Fin 8) (v : Byte) :
    (s.setReg i v).reg j = if j = i then v else s.reg j := by
  split
  · next h => rw [h, State.reg_setReg_same]
  · next h => exact State.reg_setReg_other s v h

@[simp] theorem State.reg_setPc (s : State) (target : PcWord) (i : Fin 8) : (s.setPc target).reg i = s.reg i := rfl
@[simp] theorem State.reg_emit (s : State) (v : Byte) (i : Fin 8) : (s.emit v).reg i = s.reg i := rfl
@[simp] theorem reg_takeFault (op : Byte) (e : Raise) (s : State) (i : Fin 8) : (takeFault op e s).reg i = s.reg i := rfl
@[simp] theorem State.reg_beginEdge (s : State) (i : Fin 8) : s.beginEdge.reg i = s.reg i := rfl
@[simp] theorem State.sp_beginEdge (s : State) : s.beginEdge.sp = s.sp := rfl
@[simp] theorem State.pushAddr_beginEdge (s : State) : s.beginEdge.pushAddr = s.pushAddr := rfl
@[simp] theorem State.sp_setReg_sp (s : State) (v : Byte) : (s.setReg spIndex v).sp = v := State.reg_setReg_same s _ v

end Sys2Proof.Machine
end

