-- ==== Sys2Proof/Laws/Ops.lean ====
section
/-! SUPPORT. One lemma per shared operation saying everything it can do. -/

namespace Sys2Proof.Machine

/-! ### Operands and memory access -/

theorem regIndex_ok {a : Byte} (h : a.toNat < 8) : regIndex a = .ok ⟨a.toNat, h⟩ := dif_pos h

theorem regIndex_error {a : Byte} (h : 8 ≤ a.toNat) : regIndex a = .error ⟨.outOfRangeRegister, zext9 a⟩ :=
  dif_neg (Nat.not_lt.2 h)

/-- A register operand is in range and names its register, or raises OUT_OF_RANGE_REGISTER. -/
theorem regIndex_cases (a : Byte) :
    (∃ h : a.toNat < 8, regIndex a = .ok ⟨a.toNat, h⟩) ∨
    (8 ≤ a.toNat ∧ regIndex a = .error ⟨.outOfRangeRegister, zext9 a⟩) := by
  rcases Nat.lt_or_ge a.toNat 8 with h | h
  · exact .inl ⟨h, regIndex_ok h⟩
  · exact .inr ⟨h, regIndex_error h⟩

theorem memRead_ok {s : State} {addr : Nat} (h : addr < s.cfg.memSize) : memRead s addr = .ok (s.mem.read addr) :=
  if_neg (Nat.not_le.2 h)

theorem memRead_error {s : State} {addr : Nat} (h : s.cfg.memSize ≤ addr) :
    memRead s addr = .error ⟨.outOfRangeMemory, BitVec.ofNat 9 addr⟩ := if_pos h

theorem memWrite_ok {s : State} {addr : Nat} (v : Byte) (h : addr < s.cfg.memSize) :
    memWrite s addr v = .ok { s with mem := s.mem.write addr v } := if_neg (Nat.not_le.2 h)

/-! ### The stack -/

theorem State.pushAddr_eq {s : State} (h : s.sp ≠ 0#8) : s.pushAddr = s.sp.toNat - 1 := by
  have h0 : s.sp.toNat ≠ 0 := fun e => h (BitVec.eq_of_toNat_eq e)
  have h1 := s.sp.isLt
  simp only [State.pushAddr, BitVec.toNat_sub, BitVec.toNat_ofNat]
  omega

theorem push_overflow {s : State} (v : State → Byte) (h : s.sp = 0#8) :
    push s v = .error ⟨.stackOverflow, zext9 s.sp⟩ := if_pos h

theorem push_outside {s : State} (v : State → Byte) (h : s.sp ≠ 0#8) (hn : s.cfg.memSize ≤ s.pushAddr) :
    push s v = .error ⟨.outOfRangeMemory, BitVec.ofNat 9 s.pushAddr⟩ := by
  simp [push, h, hn]

theorem push_ok {s : State} (v : State → Byte) (h : s.sp ≠ 0#8) (hn : s.pushAddr < s.cfg.memSize) :
    push s v = .ok { s.setReg spIndex (s.sp - 1#8) with
      mem := s.mem.write s.pushAddr (v (s.setReg spIndex (s.sp - 1#8))) } := by
  have hn' : (s.sp - 1#8).toNat < s.cfg.memSize := hn
  simp only [push, h, if_false, Nat.not_le.2 hn, State.sp_setReg_sp]
  rw [memWrite_ok _ (by simpa using hn')]
  rfl

/-- Everything a push can do: overflow, a cell outside memory, or the store. -/
theorem push_cases (s : State) (v : State → Byte) :
    (s.sp = 0#8 ∧ push s v = .error ⟨.stackOverflow, zext9 s.sp⟩) ∨
    (s.sp ≠ 0#8 ∧ s.cfg.memSize ≤ s.pushAddr ∧
      push s v = .error ⟨.outOfRangeMemory, BitVec.ofNat 9 s.pushAddr⟩) ∨
    (s.sp ≠ 0#8 ∧ s.pushAddr < s.cfg.memSize ∧
      push s v = .ok { s.setReg spIndex (s.sp - 1#8) with
        mem := s.mem.write s.pushAddr (v (s.setReg spIndex (s.sp - 1#8))) }) := by
  by_cases h : s.sp = 0#8
  · exact .inl ⟨h, push_overflow v h⟩
  · rcases Nat.lt_or_ge s.pushAddr s.cfg.memSize with hn | hn
    · exact .inr (.inr ⟨h, hn, push_ok v h hn⟩)
    · exact .inr (.inl ⟨h, hn, push_outside v h hn⟩)

theorem popRead_underflow {s : State} (h : s.sp = s.cfg.spInit) :
    popRead s = .error ⟨.stackUnderflow, zext9 s.sp⟩ := if_pos h

theorem popRead_outside {s : State} (h : s.sp ≠ s.cfg.spInit) (hn : s.cfg.memSize ≤ s.sp.toNat) :
    popRead s = .error ⟨.outOfRangeMemory, BitVec.ofNat 9 s.sp.toNat⟩ :=
  (if_neg h).trans (memRead_error hn)

theorem popRead_ok {s : State} (h : s.sp ≠ s.cfg.spInit) (hn : s.sp.toNat < s.cfg.memSize) :
    popRead s = .ok (s.mem.read s.sp.toNat) := (if_neg h).trans (memRead_ok hn)

/-- Everything the read of a pop can do: underflow, a cell outside memory, or the byte. -/
theorem popRead_cases (s : State) :
    (s.sp = s.cfg.spInit ∧ popRead s = .error ⟨.stackUnderflow, zext9 s.sp⟩) ∨
    (s.sp ≠ s.cfg.spInit ∧ s.cfg.memSize ≤ s.sp.toNat ∧
      popRead s = .error ⟨.outOfRangeMemory, BitVec.ofNat 9 s.sp.toNat⟩) ∨
    (s.sp ≠ s.cfg.spInit ∧ s.sp.toNat < s.cfg.memSize ∧ popRead s = .ok (s.mem.read s.sp.toNat)) := by
  by_cases h : s.sp = s.cfg.spInit
  · exact .inl ⟨h, popRead_underflow h⟩
  · rcases Nat.lt_or_ge s.sp.toNat s.cfg.memSize with hn | hn
    · exact .inr (.inr ⟨h, hn, popRead_ok h hn⟩)
    · exact .inr (.inl ⟨h, hn, popRead_outside h hn⟩)

/-! ### The end of an instruction -/

@[simp] theorem complete_ok (op : Byte) (s s' : State) : complete op s (.ok s') = .next (advance op s.pc s') := rfl

@[simp] theorem complete_error (op : Byte) (s : State) (e : Raise) :
    complete op s (.error e) = .next (takeFault op e s) := rfl

theorem advance_setsPc {op : Byte} (ia : PcWord) (s : State) (h : setsPc op = true) : advance op ia s = s := by
  simp [advance, h]

theorem advance_default {op : Byte} (ia : PcWord) (s : State) (h : setsPc op = false) :
    advance op ia s = s.setPc (ia + 1#9 + BitVec.ofNat 9 (operandCount op)) := by
  simp [advance, h]

/-- Widening keeps the value (00_scope.md R13). -/
theorem zext9_toNat (v : Byte) : (zext9 v).toNat = v.toNat := by
  simp only [zext9, BitVec.toNat_setWidth]
  have := v.isLt
  omega

end Sys2Proof.Machine
end

