-- ==== Sys2Proof/Laws/Exec.lean ====
section
/-! SUPPORT. One inversion lemma per meaning: everything it can answer, in the terms of the shared operations. -/

namespace Sys2Proof.Machine

/-- The state a register operand of 8 or more leaves (60_exceptions.md R99). -/
abbrev registerFault (op a : Byte) (s : State) : State := takeFault op ⟨.outOfRangeRegister, zext9 a⟩ s

/-- The state after a push of `v` (43_stack_call.md R88). -/
def afterPush (s : State) (v : State → Byte) : State :=
  { s.setReg spIndex (s.sp - 1#8) with mem := s.mem.write s.pushAddr (v (s.setReg spIndex (s.sp - 1#8))) }

theorem execHlt_eq (s : State) :
    execHlt s = .next (State.setPc { s with status := .halted } (s.pc + 1#9 + 0#9)) := rfl

theorem execPrn_cases (a : Byte) (s : State) :
    (8 ≤ a.toNat ∧ execPrn a s = .next (registerFault 0x47#8 a s)) ∨
    ∃ h : a.toNat < 8, execPrn a s = .next ((s.emit (s.reg ⟨a.toNat, h⟩)).setPc (s.pc + 1#9 + 1#9)) := by
  rcases regIndex_cases a with ⟨h, e⟩ | ⟨h, e⟩
  · exact .inr ⟨h, by rw [execPrn, e]; rfl⟩
  · exact .inl ⟨h, by rw [execPrn, e]; rfl⟩

theorem execLdi_cases (a b : Byte) (s : State) :
    (8 ≤ a.toNat ∧ execLdi a b s = .next (registerFault 0x82#8 a s)) ∨
    ∃ h : a.toNat < 8, execLdi a b s = .next ((s.setReg ⟨a.toNat, h⟩ b).setPc (s.pc + 1#9 + 2#9)) := by
  rcases regIndex_cases a with ⟨h, e⟩ | ⟨h, e⟩
  · exact .inr ⟨h, by rw [execLdi, e]; rfl⟩
  · exact .inl ⟨h, by rw [execLdi, e]; rfl⟩

theorem execMul_cases (a b : Byte) (s : State) :
    (8 ≤ a.toNat ∧ execMul a b s = .next (registerFault 0xA2#8 a s)) ∨
    (a.toNat < 8 ∧ 8 ≤ b.toNat ∧ execMul a b s = .next (registerFault 0xA2#8 b s)) ∨
    ∃ (h : a.toNat < 8) (k : b.toNat < 8), execMul a b s =
      .next ((s.setReg ⟨a.toNat, h⟩ (aluMul (s.reg ⟨a.toNat, h⟩) (s.reg ⟨b.toNat, k⟩))).setPc (s.pc + 1#9 + 2#9)) := by
  rcases regIndex_cases a with ⟨h, e⟩ | ⟨h, e⟩
  · rcases regIndex_cases b with ⟨k, f⟩ | ⟨k, f⟩
    · exact .inr (.inr ⟨h, k, by rw [execMul, e, f]; rfl⟩)
    · exact .inr (.inl ⟨h, k, by rw [execMul, e, f]; rfl⟩)
  · exact .inl ⟨h, by rw [execMul, e]; rfl⟩

theorem execAdd_cases (a b : Byte) (s : State) :
    (8 ≤ a.toNat ∧ execAdd a b s = .next (registerFault 0xA0#8 a s)) ∨
    (a.toNat < 8 ∧ 8 ≤ b.toNat ∧ execAdd a b s = .next (registerFault 0xA0#8 b s)) ∨
    ∃ (h : a.toNat < 8) (k : b.toNat < 8), execAdd a b s =
      .next ((s.setReg ⟨a.toNat, h⟩ (aluAdd (s.reg ⟨a.toNat, h⟩) (s.reg ⟨b.toNat, k⟩))).setPc (s.pc + 1#9 + 2#9)) := by
  rcases regIndex_cases a with ⟨h, e⟩ | ⟨h, e⟩
  · rcases regIndex_cases b with ⟨k, f⟩ | ⟨k, f⟩
    · exact .inr (.inr ⟨h, k, by rw [execAdd, e, f]; rfl⟩)
    · exact .inr (.inl ⟨h, k, by rw [execAdd, e, f]; rfl⟩)
  · exact .inl ⟨h, by rw [execAdd, e]; rfl⟩

theorem execCmp_cases (a b : Byte) (s : State) :
    (8 ≤ a.toNat ∧ execCmp a b s = .next (registerFault 0xA7#8 a s)) ∨
    (a.toNat < 8 ∧ 8 ≤ b.toNat ∧ execCmp a b s = .next (registerFault 0xA7#8 b s)) ∨
    ∃ (h : a.toNat < 8) (k : b.toNat < 8), execCmp a b s =
      .next (State.setPc { s with fl := compareFlags (s.reg ⟨a.toNat, h⟩) (s.reg ⟨b.toNat, k⟩) }
        (s.pc + 1#9 + 2#9)) := by
  rcases regIndex_cases a with ⟨h, e⟩ | ⟨h, e⟩
  · rcases regIndex_cases b with ⟨k, f⟩ | ⟨k, f⟩
    · exact .inr (.inr ⟨h, k, by rw [execCmp, e, f]; rfl⟩)
    · exact .inr (.inl ⟨h, k, by rw [execCmp, e, f]; rfl⟩)
  · exact .inl ⟨h, by rw [execCmp, e]; rfl⟩

theorem execPush_cases (a : Byte) (s : State) :
    (8 ≤ a.toNat ∧ execPush a s = .next (registerFault 0x45#8 a s)) ∨
    (a.toNat < 8 ∧ s.sp = 0#8 ∧ execPush a s = .next (takeFault 0x45#8 ⟨.stackOverflow, zext9 s.sp⟩ s)) ∨
    (a.toNat < 8 ∧ s.sp ≠ 0#8 ∧ s.cfg.memSize ≤ s.pushAddr ∧
      execPush a s = .next (takeFault 0x45#8 ⟨.outOfRangeMemory, BitVec.ofNat 9 s.pushAddr⟩ s)) ∨
    ∃ h : a.toNat < 8, s.sp ≠ 0#8 ∧ s.pushAddr < s.cfg.memSize ∧
      execPush a s = .next ((afterPush s fun s₁ => s₁.reg ⟨a.toNat, h⟩).setPc (s.pc + 1#9 + 1#9)) := by
  rcases regIndex_cases a with ⟨h, e⟩ | ⟨h, e⟩
  · rcases push_cases s (fun s₁ => s₁.reg ⟨a.toNat, h⟩) with ⟨k, f⟩ | ⟨k, n, f⟩ | ⟨k, n, f⟩
    · exact .inr (.inl ⟨h, k, by rw [execPush, e]; exact congrArg (complete _ s) f⟩)
    · exact .inr (.inr (.inl ⟨h, k, n, by rw [execPush, e]; exact congrArg (complete _ s) f⟩))
    · exact .inr (.inr (.inr ⟨h, k, n, by rw [execPush, e]; exact congrArg (complete _ s) f⟩))
  · exact .inl ⟨h, by rw [execPush, e]; rfl⟩

theorem execPop_cases (a : Byte) (s : State) :
    (8 ≤ a.toNat ∧ execPop a s = .next (registerFault 0x46#8 a s)) ∨
    (a.toNat < 8 ∧ s.sp = s.cfg.spInit ∧
      execPop a s = .next (takeFault 0x46#8 ⟨.stackUnderflow, zext9 s.sp⟩ s)) ∨
    (a.toNat < 8 ∧ s.sp ≠ s.cfg.spInit ∧ s.cfg.memSize ≤ s.sp.toNat ∧
      execPop a s = .next (takeFault 0x46#8 ⟨.outOfRangeMemory, BitVec.ofNat 9 s.sp.toNat⟩ s)) ∨
    ∃ h : a.toNat < 8, s.sp ≠ s.cfg.spInit ∧ s.sp.toNat < s.cfg.memSize ∧
      execPop a s =
        .next ((popIncrement (s.setReg ⟨a.toNat, h⟩ (s.mem.read s.sp.toNat))).setPc (s.pc + 1#9 + 1#9)) := by
  rcases regIndex_cases a with ⟨h, e⟩ | ⟨h, e⟩
  · rcases popRead_cases s with ⟨k, f⟩ | ⟨k, n, f⟩ | ⟨k, n, f⟩
    · exact .inr (.inl ⟨h, k, by rw [execPop, e, f]; rfl⟩)
    · exact .inr (.inr (.inl ⟨h, k, n, by rw [execPop, e, f]; rfl⟩))
    · exact .inr (.inr (.inr ⟨h, k, n, by rw [execPop, e, f]; rfl⟩))
  · exact .inl ⟨h, by rw [execPop, e]; rfl⟩

theorem execCall_cases (a : Byte) (s : State) :
    (8 ≤ a.toNat ∧ execCall a s = .next (registerFault 0x50#8 a s)) ∨
    (a.toNat < 8 ∧ s.sp = 0#8 ∧ execCall a s = .next (takeFault 0x50#8 ⟨.stackOverflow, zext9 s.sp⟩ s)) ∨
    (a.toNat < 8 ∧ s.sp ≠ 0#8 ∧ s.cfg.memSize ≤ s.pushAddr ∧
      execCall a s = .next (takeFault 0x50#8 ⟨.outOfRangeMemory, BitVec.ofNat 9 s.pushAddr⟩ s)) ∨
    ∃ h : a.toNat < 8, s.sp ≠ 0#8 ∧ s.pushAddr < s.cfg.memSize ∧
      execCall a s =
        .next ((afterPush s fun _ => returnByte s.pc).setPc
          (zext9 ((s.setReg spIndex (s.sp - 1#8)).reg ⟨a.toNat, h⟩))) := by
  rcases regIndex_cases a with ⟨h, e⟩ | ⟨h, e⟩
  · rcases push_cases s (fun _ => returnByte s.pc) with ⟨k, f⟩ | ⟨k, n, f⟩ | ⟨k, n, f⟩
    · exact .inr (.inl ⟨h, k, by rw [execCall, e]; simp only [bind, Except.bind, f]; rfl⟩)
    · exact .inr (.inr (.inl ⟨h, k, n, by rw [execCall, e]; simp only [bind, Except.bind, f]; rfl⟩))
    · exact .inr (.inr (.inr ⟨h, k, n, by rw [execCall, e]; simp only [bind, Except.bind, f]; rfl⟩))
  · exact .inl ⟨h, by rw [execCall, e]; rfl⟩

theorem execRet_cases (s : State) :
    (s.sp = s.cfg.spInit ∧ execRet s = .next (takeFault 0x11#8 ⟨.stackUnderflow, zext9 s.sp⟩ s)) ∨
    (s.sp ≠ s.cfg.spInit ∧ s.cfg.memSize ≤ s.sp.toNat ∧
      execRet s = .next (takeFault 0x11#8 ⟨.outOfRangeMemory, BitVec.ofNat 9 s.sp.toNat⟩ s)) ∨
    (s.sp ≠ s.cfg.spInit ∧ s.sp.toNat < s.cfg.memSize ∧
      execRet s = .next (popIncrement (s.setPc (zext9 (s.mem.read s.sp.toNat))))) := by
  rcases popRead_cases s with ⟨k, f⟩ | ⟨k, n, f⟩ | ⟨k, n, f⟩
  · exact .inl ⟨k, by rw [execRet, f]; rfl⟩
  · exact .inr (.inl ⟨k, n, by rw [execRet, f]; rfl⟩)
  · exact .inr (.inr ⟨k, n, by rw [execRet, f]; rfl⟩)

theorem execJmp_cases (a : Byte) (s : State) :
    (8 ≤ a.toNat ∧ execJmp a s = .next (registerFault 0x54#8 a s)) ∨
    ∃ h : a.toNat < 8, execJmp a s = .next (s.setPc (zext9 (s.reg ⟨a.toNat, h⟩))) := by
  rcases regIndex_cases a with ⟨h, e⟩ | ⟨h, e⟩
  · exact .inr ⟨h, by rw [execJmp, e]; rfl⟩
  · exact .inl ⟨h, by rw [execJmp, e]; rfl⟩

theorem execJeq_cases (a : Byte) (s : State) :
    (8 ≤ a.toNat ∧ execJeq a s = .next (registerFault 0x55#8 a s)) ∨
    ∃ h : a.toNat < 8, execJeq a s =
      .next (s.setPc (if flagE s.fl then zext9 (s.reg ⟨a.toNat, h⟩) else s.pc + 2#9)) := by
  rcases regIndex_cases a with ⟨h, e⟩ | ⟨h, e⟩
  · exact .inr ⟨h, by rw [execJeq, e]; rfl⟩
  · exact .inl ⟨h, by rw [execJeq, e]; rfl⟩

theorem execJne_cases (a : Byte) (s : State) :
    (8 ≤ a.toNat ∧ execJne a s = .next (registerFault 0x56#8 a s)) ∨
    ∃ h : a.toNat < 8, execJne a s =
      .next (s.setPc (if flagE s.fl then s.pc + 2#9 else zext9 (s.reg ⟨a.toNat, h⟩))) := by
  rcases regIndex_cases a with ⟨h, e⟩ | ⟨h, e⟩
  · exact .inr ⟨h, by rw [execJne, e]; rfl⟩
  · exact .inl ⟨h, by rw [execJne, e]; rfl⟩

/-- `t` is what instruction `i` leaves of `s` when it does not fault. -/
def Completes (i : Instr) (s t : State) : Prop :=
  match i with
  | .hlt => t = State.setPc { s with status := .halted } (s.pc + 1#9 + 0#9)
  | .ldi a b => ∃ h : a.toNat < 8, t = (s.setReg ⟨a.toNat, h⟩ b).setPc (s.pc + 1#9 + 2#9)
  | .prn a => ∃ h : a.toNat < 8, t = (s.emit (s.reg ⟨a.toNat, h⟩)).setPc (s.pc + 1#9 + 1#9)
  | .mul a b => ∃ (h : a.toNat < 8) (k : b.toNat < 8),
      t = (s.setReg ⟨a.toNat, h⟩ (aluMul (s.reg ⟨a.toNat, h⟩) (s.reg ⟨b.toNat, k⟩))).setPc (s.pc + 1#9 + 2#9)
  | .add a b => ∃ (h : a.toNat < 8) (k : b.toNat < 8),
      t = (s.setReg ⟨a.toNat, h⟩ (aluAdd (s.reg ⟨a.toNat, h⟩) (s.reg ⟨b.toNat, k⟩))).setPc (s.pc + 1#9 + 2#9)
  | .push a => ∃ h : a.toNat < 8, s.sp ≠ 0#8 ∧ s.pushAddr < s.cfg.memSize ∧
      t = (afterPush s fun s₁ => s₁.reg ⟨a.toNat, h⟩).setPc (s.pc + 1#9 + 1#9)
  | .pop a => ∃ h : a.toNat < 8, s.sp ≠ s.cfg.spInit ∧ s.sp.toNat < s.cfg.memSize ∧
      t = (popIncrement (s.setReg ⟨a.toNat, h⟩ (s.mem.read s.sp.toNat))).setPc (s.pc + 1#9 + 1#9)
  | .call a => ∃ h : a.toNat < 8, s.sp ≠ 0#8 ∧ s.pushAddr < s.cfg.memSize ∧
      t = (afterPush s fun _ => returnByte s.pc).setPc (zext9 ((s.setReg spIndex (s.sp - 1#8)).reg ⟨a.toNat, h⟩))
  | .ret => s.sp ≠ s.cfg.spInit ∧ s.sp.toNat < s.cfg.memSize ∧
      t = popIncrement (s.setPc (zext9 (s.mem.read s.sp.toNat)))
  | .cmp a b => ∃ (h : a.toNat < 8) (k : b.toNat < 8),
      t = State.setPc { s with fl := compareFlags (s.reg ⟨a.toNat, h⟩) (s.reg ⟨b.toNat, k⟩) } (s.pc + 1#9 + 2#9)
  | .jeq a => ∃ h : a.toNat < 8, t = s.setPc (if flagE s.fl then zext9 (s.reg ⟨a.toNat, h⟩) else s.pc + 2#9)
  | .jne a => ∃ h : a.toNat < 8, t = s.setPc (if flagE s.fl then s.pc + 2#9 else zext9 (s.reg ⟨a.toNat, h⟩))
  | .jmp a => ∃ h : a.toNat < 8, t = s.setPc (zext9 (s.reg ⟨a.toNat, h⟩))

/-- A fault raised by an instruction after its fetch: its cause and an address of at most 255. -/
abbrev FaultsAs (i : Instr) (s t : State) : Prop := ∃ e : Raise, e.addr.toNat ≤ 255 ∧ t = takeFault i.opcode e s

theorem zext9_le (v : Byte) : (zext9 v).toNat ≤ 255 := by
  have := v.isLt
  rw [zext9_toNat]; omega

theorem ofNat9_le {n : Nat} (h : n ≤ 255) : (BitVec.ofNat 9 n).toNat ≤ 255 := by
  rw [BitVec.toNat_ofNat]; omega

theorem State.sp_le (s : State) : s.sp.toNat ≤ 255 := by
  have := s.sp.isLt
  omega

theorem State.pushAddr_le (s : State) : s.pushAddr ≤ 255 := by
  have := (s.sp - 1#8).isLt
  unfold State.pushAddr; omega

/-- EVERYTHING an instruction can answer: it faults, or it completes with its own effect. -/
theorem exec_cases (i : Instr) (s : State) :
    ∃ t, exec i s = .next t ∧ (FaultsAs i s t ∨ Completes i s t) := by
  cases i with
  | hlt => exact ⟨_, execHlt_eq s, .inr rfl⟩
  | ldi a b =>
    rcases execLdi_cases a b s with ⟨_, e⟩ | ⟨h, e⟩
    · exact ⟨_, e, .inl ⟨_, zext9_le a, rfl⟩⟩
    · exact ⟨_, e, .inr ⟨h, rfl⟩⟩
  | prn a =>
    rcases execPrn_cases a s with ⟨_, e⟩ | ⟨h, e⟩
    · exact ⟨_, e, .inl ⟨_, zext9_le a, rfl⟩⟩
    · exact ⟨_, e, .inr ⟨h, rfl⟩⟩
  | mul a b =>
    rcases execMul_cases a b s with ⟨_, e⟩ | ⟨_, _, e⟩ | ⟨h, k, e⟩
    · exact ⟨_, e, .inl ⟨_, zext9_le a, rfl⟩⟩
    · exact ⟨_, e, .inl ⟨_, zext9_le b, rfl⟩⟩
    · exact ⟨_, e, .inr ⟨h, k, rfl⟩⟩
  | add a b =>
    rcases execAdd_cases a b s with ⟨_, e⟩ | ⟨_, _, e⟩ | ⟨h, k, e⟩
    · exact ⟨_, e, .inl ⟨_, zext9_le a, rfl⟩⟩
    · exact ⟨_, e, .inl ⟨_, zext9_le b, rfl⟩⟩
    · exact ⟨_, e, .inr ⟨h, k, rfl⟩⟩
  | push a =>
    rcases execPush_cases a s with ⟨_, e⟩ | ⟨_, _, e⟩ | ⟨_, _, _, e⟩ | ⟨h, k, n, e⟩
    · exact ⟨_, e, .inl ⟨_, zext9_le a, rfl⟩⟩
    · exact ⟨_, e, .inl ⟨_, zext9_le s.sp, rfl⟩⟩
    · exact ⟨_, e, .inl ⟨_, ofNat9_le s.pushAddr_le, rfl⟩⟩
    · exact ⟨_, e, .inr ⟨h, k, n, rfl⟩⟩
  | pop a =>
    rcases execPop_cases a s with ⟨_, e⟩ | ⟨_, _, e⟩ | ⟨_, _, _, e⟩ | ⟨h, k, n, e⟩
    · exact ⟨_, e, .inl ⟨_, zext9_le a, rfl⟩⟩
    · exact ⟨_, e, .inl ⟨_, zext9_le s.sp, rfl⟩⟩
    · exact ⟨_, e, .inl ⟨_, ofNat9_le s.sp_le, rfl⟩⟩
    · exact ⟨_, e, .inr ⟨h, k, n, rfl⟩⟩
  | call a =>
    rcases execCall_cases a s with ⟨_, e⟩ | ⟨_, _, e⟩ | ⟨_, _, _, e⟩ | ⟨h, k, n, e⟩
    · exact ⟨_, e, .inl ⟨_, zext9_le a, rfl⟩⟩
    · exact ⟨_, e, .inl ⟨_, zext9_le s.sp, rfl⟩⟩
    · exact ⟨_, e, .inl ⟨_, ofNat9_le s.pushAddr_le, rfl⟩⟩
    · exact ⟨_, e, .inr ⟨h, k, n, rfl⟩⟩
  | ret =>
    rcases execRet_cases s with ⟨_, e⟩ | ⟨_, _, e⟩ | ⟨k, n, e⟩
    · exact ⟨_, e, .inl ⟨_, zext9_le s.sp, rfl⟩⟩
    · exact ⟨_, e, .inl ⟨_, ofNat9_le s.sp_le, rfl⟩⟩
    · exact ⟨_, e, .inr ⟨k, n, rfl⟩⟩
  | cmp a b =>
    rcases execCmp_cases a b s with ⟨_, e⟩ | ⟨_, _, e⟩ | ⟨h, k, e⟩
    · exact ⟨_, e, .inl ⟨_, zext9_le a, rfl⟩⟩
    · exact ⟨_, e, .inl ⟨_, zext9_le b, rfl⟩⟩
    · exact ⟨_, e, .inr ⟨h, k, rfl⟩⟩
  | jeq a =>
    rcases execJeq_cases a s with ⟨_, e⟩ | ⟨h, e⟩
    · exact ⟨_, e, .inl ⟨_, zext9_le a, rfl⟩⟩
    · exact ⟨_, e, .inr ⟨h, rfl⟩⟩
  | jne a =>
    rcases execJne_cases a s with ⟨_, e⟩ | ⟨h, e⟩
    · exact ⟨_, e, .inl ⟨_, zext9_le a, rfl⟩⟩
    · exact ⟨_, e, .inr ⟨h, rfl⟩⟩
  | jmp a =>
    rcases execJmp_cases a s with ⟨_, e⟩ | ⟨h, e⟩
    · exact ⟨_, e, .inl ⟨_, zext9_le a, rfl⟩⟩
    · exact ⟨_, e, .inr ⟨h, rfl⟩⟩

/-- The inversion of `exec_cases`. -/
theorem exec_inv {i : Instr} {s t : State} (h : exec i s = .next t) : FaultsAs i s t ∨ Completes i s t := by
  obtain ⟨t', e, c⟩ := exec_cases i s
  rw [e] at h
  cases h
  exact c

end Sys2Proof.Machine
end

