-- ==== Sys2Proof/Laws/Engine.lean ====
section
/-! SUPPORT. The engine: everything a fetch can answer, and what one clock edge does in each status. -/

namespace Sys2Proof.Machine

theorem fetch_outside {s : State} (h : s.cfg.memSize ≤ s.pc.toNat) :
    fetch s = .error (0x00#8, ⟨.outOfRangeMemory, BitVec.ofNat 9 s.pc.toNat⟩) := by
  simp only [fetch, memRead_error h]; rfl

theorem fetch_unknown {s : State} (h : s.pc.toNat < s.cfg.memSize) (hl : lookup (s.mem.read s.pc.toNat) = none) :
    fetch s = .error (s.mem.read s.pc.toNat, ⟨.unknownOpcode, s.pc⟩) := by
  simp only [fetch, memRead_ok h, Except.mapError, bind, Except.bind, hl]

/-- The fetch of an instruction whose opcode is registered: its operands, each checked against N. -/
theorem fetch_known {s : State} {mk : Byte → Byte → Instr} (h : s.pc.toNat < s.cfg.memSize)
    (hl : lookup (s.mem.read s.pc.toNat) = some mk) :
    fetch s = (do
      let a ← fetchOperand s (s.mem.read s.pc.toNat) (decide (1 ≤ operandCount (s.mem.read s.pc.toNat))) (s.pc.toNat + 1)
      let b ← fetchOperand s (s.mem.read s.pc.toNat) (decide (operandCount (s.mem.read s.pc.toNat) = 2)) (s.pc.toNat + 2)
      return mk a b) := by
  simp only [fetch, memRead_ok h, Except.mapError, bind, Except.bind, hl]

theorem fetchOperand_absent (s : State) (op : Byte) (addr : Nat) : fetchOperand s op false addr = .ok 0#8 := rfl

theorem fetchOperand_ok {s : State} (op : Byte) {addr : Nat} (h : addr < s.cfg.memSize) :
    fetchOperand s op true addr = .ok (s.mem.read addr) := by
  simp [fetchOperand, memRead_ok h, Except.mapError]

theorem fetchOperand_error {s : State} (op : Byte) {addr : Nat} (h : s.cfg.memSize ≤ addr) :
    fetchOperand s op true addr = .error (op, ⟨.outOfRangeMemory, BitVec.ofNat 9 addr⟩) := by
  simp [fetchOperand, memRead_error h, Except.mapError]

/-- Everything a fetch can answer (40_engine.md R68 to R70): a fault of the opcode fetch, an unknown opcode, a missing
operand byte, or the instruction, all of whose bytes lie below N. -/
theorem fetch_cases (s : State) :
    (s.cfg.memSize ≤ s.pc.toNat ∧
      fetch s = .error (0x00#8, ⟨.outOfRangeMemory, BitVec.ofNat 9 s.pc.toNat⟩)) ∨
    (s.pc.toNat < s.cfg.memSize ∧ lookup (s.mem.read s.pc.toNat) = none ∧
      fetch s = .error (s.mem.read s.pc.toNat, ⟨.unknownOpcode, s.pc⟩)) ∨
    (∃ mk k, s.pc.toNat < s.cfg.memSize ∧ lookup (s.mem.read s.pc.toNat) = some mk ∧ 1 ≤ k ∧
      k ≤ operandCount (s.mem.read s.pc.toNat) ∧ s.pc.toNat + k = s.cfg.memSize ∧
      fetch s = .error (s.mem.read s.pc.toNat, ⟨.outOfRangeMemory, BitVec.ofNat 9 (s.pc.toNat + k)⟩)) ∨
    (∃ mk, lookup (s.mem.read s.pc.toNat) = some mk ∧
      s.pc.toNat + operandCount (s.mem.read s.pc.toNat) < s.cfg.memSize ∧
      fetch s = .ok (mk (s.mem.read (s.pc.toNat + 1)) (s.mem.read (s.pc.toNat + 2)))) := by
  rcases Nat.lt_or_ge s.pc.toNat s.cfg.memSize with h | h
  · cases hl : lookup (s.mem.read s.pc.toNat) with
    | none => exact .inr (.inl ⟨h, rfl, fetch_unknown h hl⟩)
    | some mk =>
      right; right
      have hf := fetch_known h hl
      have hig := lookup_ignores hl
      rcases lookup_operandCount hl with hc | hc | hc
      · refine .inr ⟨mk, rfl, by omega, ?_⟩
        rw [hf, hc, (hig _ _).1 hc]
        rfl
      · rcases Nat.lt_or_ge (s.pc.toNat + 1) s.cfg.memSize with h1 | h1
        · refine .inr ⟨mk, rfl, by omega, ?_⟩
          rw [hf, hc, show decide (1 ≤ 1) = true from rfl, fetchOperand_ok _ h1, (hig _ _).2 hc]
          rfl
        · refine .inl ⟨mk, 1, h, rfl, by omega, by omega, by omega, ?_⟩
          rw [hf, hc, show decide (1 ≤ 1) = true from rfl, fetchOperand_error _ h1]
          rfl
      · rcases Nat.lt_or_ge (s.pc.toNat + 1) s.cfg.memSize with h1 | h1
        · rcases Nat.lt_or_ge (s.pc.toNat + 2) s.cfg.memSize with h2 | h2
          · refine .inr ⟨mk, rfl, by omega, ?_⟩
            rw [hf, hc, show decide (1 ≤ 2) = true from rfl, show decide (2 = 2) = true from rfl,
              fetchOperand_ok _ h1, fetchOperand_ok _ h2]
            rfl
          · refine .inl ⟨mk, 2, h, rfl, by omega, by omega, by omega, ?_⟩
            rw [hf, hc, show decide (1 ≤ 2) = true from rfl, show decide (2 = 2) = true from rfl,
              fetchOperand_ok _ h1, fetchOperand_error _ h2]
            rfl
        · refine .inl ⟨mk, 1, h, rfl, by omega, by omega, by omega, ?_⟩
          rw [hf, hc, show decide (1 ≤ 2) = true from rfl, fetchOperand_error _ h1]
          rfl
  · exact .inl ⟨h, fetch_outside h⟩

/-! ### One clock edge -/

theorem step_legal {s : State} (h : s.cfg.wf = true) : step s = clockEdge s := by simp [step, h]

theorem step_illegal {s : State} (h : s.cfg.wf = false) : step s = .refused .illegalMemorySize := by simp [step, h]

theorem clockEdge_reset {s : State} (h : s.nextPins.rst = true) : clockEdge s = .next (applyReset s.beginEdge) := by
  simp [clockEdge, h]

theorem clockEdge_idle {s : State} (h : s.nextPins.rst = false) (hs : s.status = .idle) :
    clockEdge s = .next (idleEdge s.nextPins s.beginEdge) := by
  simp [clockEdge, h, hs]

theorem clockEdge_running {s : State} (h : s.nextPins.rst = false) (hs : s.status = .running) :
    clockEdge s = runInstr s.beginEdge := by
  simp [clockEdge, h, hs]

theorem clockEdge_halted {s : State} (h : s.nextPins.rst = false) (hs : s.status = .halted) :
    clockEdge s = .next s.beginEdge := by
  simp [clockEdge, h, hs]

theorem clockEdge_faulted {s : State} (h : s.nextPins.rst = false) (hs : s.status = .faulted) :
    clockEdge s = .next s.beginEdge := by
  simp [clockEdge, h, hs]

/-- EVERYTHING a step can answer a next state by: a reset, an Idle edge, an edge in Halted or Faulted, or one run of the
engine (40_engine.md R79, R80). -/
theorem step_inv {s t : State} (h : step s = .next t) :
    s.cfg.wf = true ∧
    ((s.nextPins.rst = true ∧ t = applyReset s.beginEdge) ∨
     (s.nextPins.rst = false ∧ s.status = .idle ∧ t = idleEdge s.nextPins s.beginEdge) ∨
     (s.nextPins.rst = false ∧ (s.status = .halted ∨ s.status = .faulted) ∧ t = s.beginEdge) ∨
     (s.nextPins.rst = false ∧ s.status = .running ∧ runInstr s.beginEdge = .next t)) := by
  cases hw : s.cfg.wf with
  | false => rw [step_illegal hw] at h; cases h
  | true =>
    rw [step_legal hw] at h
    refine ⟨rfl, ?_⟩
    cases hr : s.nextPins.rst with
    | true => rw [clockEdge_reset hr] at h; cases h; exact .inl ⟨rfl, rfl⟩
    | false =>
      cases hs : s.status with
      | idle => rw [clockEdge_idle hr hs] at h; cases h; exact .inr (.inl ⟨rfl, rfl, rfl⟩)
      | halted => rw [clockEdge_halted hr hs] at h; cases h; exact .inr (.inr (.inl ⟨rfl, .inl rfl, rfl⟩))
      | faulted => rw [clockEdge_faulted hr hs] at h; cases h; exact .inr (.inr (.inl ⟨rfl, .inr rfl, rfl⟩))
      | running => rw [clockEdge_running hr hs] at h; exact .inr (.inr (.inr ⟨rfl, rfl, h⟩))

/-- Everything a run of the engine can answer: a fault of the fetch, with the opcode byte at pc when there is one and an
address of at most max(pc, N), or the instruction whose bytes all lie below N. -/
theorem runInstr_inv {s t : State} (h : runInstr s = .next t) :
    (∃ e : Raise, t = takeFault (if s.cfg.memSize ≤ s.pc.toNat then 0x00#8 else s.mem.read s.pc.toNat) e s ∧
      e.addr.toNat ≤ max s.pc.toNat s.cfg.memSize) ∨
    (∃ mk, lookup (s.mem.read s.pc.toNat) = some mk ∧
      s.pc.toNat + operandCount (s.mem.read s.pc.toNat) < s.cfg.memSize ∧
      exec (mk (s.mem.read (s.pc.toNat + 1)) (s.mem.read (s.pc.toNat + 2))) s = .next t) := by
  rcases fetch_cases s with ⟨a, e⟩ | ⟨a, _, e⟩ | ⟨mk, j, a, _, _, _, f, e⟩ | ⟨mk, a, b, e⟩ <;> rw [runInstr, e] at h
  · cases h
    refine .inl ⟨_, by rw [if_pos a], ?_⟩
    rw [BitVec.toNat_ofNat]; omega
  · cases h
    exact .inl ⟨_, by rw [if_neg (Nat.not_le.2 a)], Nat.le_max_left ..⟩
  · cases h
    refine .inl ⟨_, by rw [if_neg (Nat.not_le.2 a)], ?_⟩
    rw [f, BitVec.toNat_ofNat]; omega
  · exact .inr ⟨mk, a, b, h⟩

end Sys2Proof.Machine
end

