-- ==== Sys2Proof/Laws/PerInstr.lean ====
section
/-! SUPPORT. The families of statements made per instruction, one lemma per constructor. -/

/-- The length of an instruction follows from its opcode byte alone: `1 + op[7:6]` (30_encoding.md R57). -/
def Sys2Proof.Laws.EncodedLength.Statement (i : Sys2Proof.Instr) : Prop :=
  (Sys2Proof.encode i).length = 1 + Sys2Proof.operandCount i.opcode

namespace Sys2Proof.Laws.EncodedLength

theorem hlt : Statement .hlt := show 1 = 1 + operandCount 0x01#8 by decide
theorem ldi (a b : Byte) : Statement (.ldi a b) := show 3 = 1 + operandCount 0x82#8 by decide
theorem prn (a : Byte) : Statement (.prn a) := show 2 = 1 + operandCount 0x47#8 by decide
theorem mul (a b : Byte) : Statement (.mul a b) := show 3 = 1 + operandCount 0xA2#8 by decide
theorem add (a b : Byte) : Statement (.add a b) := show 3 = 1 + operandCount 0xA0#8 by decide
theorem push (a : Byte) : Statement (.push a) := show 2 = 1 + operandCount 0x45#8 by decide
theorem pop (a : Byte) : Statement (.pop a) := show 2 = 1 + operandCount 0x46#8 by decide
theorem call (a : Byte) : Statement (.call a) := show 2 = 1 + operandCount 0x50#8 by decide
theorem ret : Statement .ret := show 1 = 1 + operandCount 0x11#8 by decide
theorem cmp (a b : Byte) : Statement (.cmp a b) := show 3 = 1 + operandCount 0xA7#8 by decide
theorem jeq (a : Byte) : Statement (.jeq a) := show 2 = 1 + operandCount 0x55#8 by decide
theorem jne (a : Byte) : Statement (.jne a) := show 2 = 1 + operandCount 0x56#8 by decide
theorem jmp (a : Byte) : Statement (.jmp a) := show 2 = 1 + operandCount 0x54#8 by decide

end Sys2Proof.Laws.EncodedLength

/-- The register operands the engine checks are operand bytes, from the first on (30_encoding.md R58, R59). -/
def Sys2Proof.Laws.RegisterOperandsEncoded.Statement (i : Sys2Proof.Instr) : Prop :=
  i.registerOperands <+: i.operandBytes

namespace Sys2Proof.Laws.RegisterOperandsEncoded

theorem hlt : Statement .hlt := List.prefix_rfl
theorem ldi (a b : Byte) : Statement (.ldi a b) := List.prefix_append [a] [b]
theorem prn (a : Byte) : Statement (.prn a) := List.prefix_rfl
theorem mul (a b : Byte) : Statement (.mul a b) := List.prefix_rfl
theorem add (a b : Byte) : Statement (.add a b) := List.prefix_rfl
theorem push (a : Byte) : Statement (.push a) := List.prefix_rfl
theorem pop (a : Byte) : Statement (.pop a) := List.prefix_rfl
theorem call (a : Byte) : Statement (.call a) := List.prefix_rfl
theorem ret : Statement .ret := List.prefix_rfl
theorem cmp (a b : Byte) : Statement (.cmp a b) := List.prefix_rfl
theorem jeq (a : Byte) : Statement (.jeq a) := List.prefix_rfl
theorem jne (a : Byte) : Statement (.jne a) := List.prefix_rfl
theorem jmp (a : Byte) : Statement (.jmp a) := List.prefix_rfl

end Sys2Proof.Laws.RegisterOperandsEncoded
end

