-- ==== Sys2Proof/Tests/Slice0.lean ====
section
/-! SUPPORT. The model's own tests (expected values from spec/95_test_vectors.md and the rules' examples, by vector id), and
a witness for the hypotheses of every statement. -/

namespace Sys2Proof.Tests

open Sys2Proof.Machine Sys2Proof.Claims

/-- 16 cells, SP_INIT = 0xF4, as in 95_test_vectors.md section 2.1. -/
def tiny : Config := { memSize := 16, spInit := 0xF4#8 }

/-- A machine in Running with `bytes` at `pc` and the registers listed. -/
def at_ (c : Config) (pc : Nat) (bytes : List Byte) (regs : List (Fin 8 × Byte)) : State :=
  regs.foldl (fun s r => s.setReg r.1 r.2)
    { State.resetWith c with pc := BitVec.ofNat 9 pc, mem := storeBytes c.memSize [] pc bytes, status := .running }

/-- The default machine. -/
def at256 (pc : Nat) (bytes : List Byte) (regs : List (Fin 8 × Byte)) : State := at_ Config.default pc bytes regs

/-- What the next step leaves, seen through `f`. -/
def after {α : Type} (s : State) (f : State → α) : Option α := (nextOf (step s)).map f

/-- The fault record and status. -/
def record (s : State) : Status × BitVec 3 × PcWord × Byte × PcWord := (s.status, s.fcause, s.fpc, s.fop, s.faddr)

/-! ### Well-formedness: an ill-formed term for each check -/

theorem test_wellFormed_refuses_first_operand :
    (Instr.ldi 8 0).wellFormed = false ∧ (Instr.prn 8).wellFormed = false ∧ (Instr.mul 8 0).wellFormed = false ∧
    (Instr.add 8 0).wellFormed = false ∧ (Instr.push 8).wellFormed = false ∧ (Instr.pop 8).wellFormed = false ∧
    (Instr.call 8).wellFormed = false ∧ (Instr.cmp 8 0).wellFormed = false ∧ (Instr.jeq 8).wellFormed = false ∧
    (Instr.jne 8).wellFormed = false ∧ (Instr.jmp 255).wellFormed = false := by decide

theorem test_wellFormed_refuses_second_operand :
    (Instr.mul 0 8).wellFormed = false ∧ (Instr.add 0 8).wellFormed = false ∧ (Instr.cmp 7 255).wellFormed = false := by
  decide

theorem test_wellFormed_accepts :
    Instr.hlt.wellFormed = true ∧ Instr.ret.wellFormed = true ∧ (Instr.ldi 7 255).wellFormed = true ∧
    (Instr.cmp 7 7).wellFormed = true := by decide

/-! ### Decoding: each constructor's word, bit by bit from R58 and R61 -/

theorem test_decode_hlt : decode [0b00000001#8] = .ok (.hlt, []) := rfl
theorem test_decode_ldi : decode [0b10000010#8, 0b00000000#8, 0b00001010#8] = .ok (.ldi 0#8 10#8, []) := rfl
theorem test_decode_prn : decode [0b01000111#8, 0b00000011#8] = .ok (.prn 3#8, []) := rfl
theorem test_decode_mul : decode [0b10100010#8, 0b00000000#8, 0b00000001#8] = .ok (.mul 0#8 1#8, []) := rfl
theorem test_decode_add : decode [0b10100000#8, 0b00000000#8, 0b00000001#8] = .ok (.add 0#8 1#8, []) := rfl
theorem test_decode_push : decode [0b01000101#8, 0b00000111#8] = .ok (.push 7#8, []) := rfl
theorem test_decode_pop : decode [0b01000110#8, 0b00000001#8] = .ok (.pop 1#8, []) := rfl
theorem test_decode_call : decode [0b01010000#8, 0b00000001#8] = .ok (.call 1#8, []) := rfl
theorem test_decode_ret : decode [0b00010001#8] = .ok (.ret, []) := rfl
theorem test_decode_cmp : decode [0b10100111#8, 0b00000001#8, 0b00000011#8] = .ok (.cmp 1#8 3#8, []) := rfl
theorem test_decode_jeq : decode [0b01010101#8, 0b00000010#8] = .ok (.jeq 2#8, []) := rfl
theorem test_decode_jne : decode [0b01010110#8, 0b00000100#8] = .ok (.jne 4#8, []) := rfl
theorem test_decode_jmp : decode [0b01010100#8, 0b00000100#8] = .ok (.jmp 4#8, []) := rfl

theorem test_decode_rejects :
    decode [] = .error .noOpcode ∧ decode [0x03#8] = .error (.unknownOpcode 0x03#8) ∧
    decode [0x82#8, 0x00#8] = .error (.truncated 0x82#8) := ⟨rfl, rfl, rfl⟩

theorem test_decodeTableWord :
    decodeTableWord 24 0x0A0082 = some (.ldi 0#8 10#8) ∧ decodeTableWord 8 0x47 = some (.prn 0#8) ∧
    decodeTableWord 8 0x0347 = some (.prn 0#8) ∧ decodeTableWord 8 0x00 = none := by decide

/-! ### Instructions, one step each -/

/-- H1, E9: HLT at 5, and in the last cell. -/
theorem test_hlt :
    after (at256 5 [0x01#8] []) (fun s => (s.status, s.pc)) = some (.halted, 6#9) ∧
    after (at256 0xFF [0x01#8] []) (fun s => (s.status, s.pc)) = some (.halted, 0x100#9) := by decide

/-- H4, H6: PRN R3 emits 255 and pulses the port. -/
theorem test_prn :
    after (at256 3 [0x47#8, 0x03#8] [(3, 0xFF#8)]) (fun s => (s.out, s.outValid, s.outData, s.pc)) =
      some ([0xFF#8], true, 0xFF#8, 5#9) := by decide

/-- E2, A2: LDI, also into the stack pointer. -/
theorem test_ldi :
    after (at256 0x10 [0x82#8, 0x05#8, 0x33#8] []) (fun s => (s.reg 5, s.pc)) = some (0x33#8, 0x13#9) ∧
    after (at256 0 [0x82#8, 0x07#8, 0x05#8] []) (fun s => s.sp) = some 0x05#8 := by decide

/-- A8: 255 * 255. -/
theorem test_mul_wraps :
    after (at256 0 [0xA2#8, 0x00#8, 0x01#8] [(0, 0xFF#8), (1, 0xFF#8)]) (fun s => (s.reg 0, s.reg 1)) =
      some (0x01#8, 0xFF#8) := by decide

/-- A8a: MUL R1,R1 with 20. -/
theorem test_mul_same_register :
    after (at256 0 [0xA2#8, 0x01#8, 0x01#8] [(1, 20#8)]) (fun s => s.reg 1) = some 144#8 := by decide

/-- A3, A5: 200 + 100; doubling. -/
theorem test_add :
    after (at256 0 [0xA0#8, 0x00#8, 0x01#8] [(0, 200#8), (1, 100#8)]) (fun s => (s.reg 0, s.reg 1, s.fl)) =
      some (44#8, 100#8, 0x00#8) ∧
    after (at256 0 [0xA0#8, 0x00#8, 0x00#8] [(0, 7#8)]) (fun s => s.reg 0) = some 14#8 := by decide

/-- A12, A10: CMP is unsigned, and sets L in bit 1. -/
theorem test_cmp :
    after (at256 0 [0xA7#8, 0x00#8, 0x01#8] [(0, 0x80#8), (1, 0x7F#8)]) (fun s => s.fl) = some 0x04#8 ∧
    after (at256 0 [0xA7#8, 0x00#8, 0x01#8] [(0, 3#8), (1, 5#8)]) (fun s => s.fl) = some 0x02#8 := by decide

/-- S2, S3: PUSH R7 stores the decremented SP; a push at SP = 1 overwrites cell 0. -/
theorem test_push :
    after (at256 0 [0x45#8, 0x07#8] []) (fun s => (s.sp, s.mem.read 0xF3)) = some (0xF3#8, 0xF3#8) ∧
    after (at256 0 [0x45#8, 0x00#8] [(7, 1#8), (0, 0x99#8)]) (fun s => (s.sp, s.mem.read 0)) = some (0#8, 0x99#8) := by
  decide

/-- S4: PUSH at SP = 0. -/
theorem test_push_overflow :
    after (at256 0 [0x45#8, 0x00#8] [(7, 0#8)]) record = some (.faulted, 5#3, 0#9, 0x45#8, 0#9) := by decide

/-- S8, S7: the increment wraps; POP R7 loads and then increments. -/
theorem test_pop :
    after { at256 0 [0x46#8, 0x02#8] [(7, 0xFF#8)] with mem := [(0, 0x46#8), (1, 0x02#8), (0xFF, 0x12#8)] }
      (fun s => (s.reg 2, s.sp)) = some (0x12#8, 0x00#8) ∧
    after { at256 0 [] [(7, 0xF3#8)] with mem := [(0, 0x46#8), (1, 0x07#8), (0xF3, 0xF3#8)] } (fun s => s.sp) =
      some 0xF4#8 := by decide

/-- S6, S17: underflow; the register operand is checked before the stack. -/
theorem test_pop_underflow :
    after (at256 0 [0x46#8, 0x01#8] []) record = some (.faulted, 4#3, 0#9, 0x46#8, 0xF4#9) ∧
    after (at256 0 [0x46#8, 0x09#8] []) record = some (.faulted, 2#3, 0#9, 0x46#8, 9#9) := by decide

/-- S10, S11: CALL at 6; at 0xFE the return byte wraps to 0. -/
theorem test_call :
    after (at256 6 [0x50#8, 0x01#8] [(1, 0x0B#8)]) (fun s => (s.sp, s.mem.read 0xF3, s.pc)) =
      some (0xF3#8, 0x08#8, 0x0B#9) ∧
    after (at256 0xFE [0x50#8, 0x01#8] [(1, 0x10#8)]) (fun s => (s.mem.read 0xF3, s.pc)) = some (0x00#8, 0x10#9) := by
  decide

/-- S12: CALL R7 jumps to the decremented SP. -/
theorem test_call_r7 :
    after (at256 0x20 [0x50#8, 0x07#8] []) (fun s => (s.sp, s.mem.read 0xF3, s.pc)) =
      some (0xF3#8, 0x22#8, 0xF3#9) := by decide

/-- E10: RET in the last cell. -/
theorem test_ret :
    after { at256 0xFF [] [(7, 0xF3#8)] with mem := [(0xF3, 0x05#8), (0xFF, 0x11#8)] } (fun s => (s.pc, s.sp)) =
      some (0x05#9, 0xF4#8) := by decide

/-- S15: RET on an empty stack. -/
theorem test_ret_underflow :
    after (at256 0 [0x11#8] []) record = some (.faulted, 4#3, 0#9, 0x11#8, 0xF4#9) := by decide

/-- B1, and E20: a target outside memory is accepted. -/
theorem test_jmp :
    after (at256 0x10 [0x54#8, 0x04#8] [(4, 0x40#8)]) (fun s => s.pc) = some 0x40#9 ∧
    after (at_ tiny 0 [0x54#8, 0x04#8] [(4, 0x20#8)]) (fun s => (s.pc, s.status)) = some (0x20#9, .running) := by decide

/-- B2, B4. -/
theorem test_jeq :
    after { at256 0x10 [0x55#8, 0x04#8] [(4, 0x40#8)] with fl := 0x01#8 } (fun s => s.pc) = some 0x40#9 ∧
    after { at256 0x10 [0x55#8, 0x04#8] [(4, 0x40#8)] with fl := 0x04#8 } (fun s => s.pc) = some 0x12#9 := by decide

/-- E16: JEQ's operand is checked although the branch is not taken. -/
theorem test_jeq_checks_operand :
    after { at256 0 [0x55#8, 0x0A#8] [] with fl := 0x04#8 } record = some (.faulted, 2#3, 0#9, 0x55#8, 0x0A#9) := by
  decide

/-- B6, B9. -/
theorem test_jne :
    after { at256 0x10 [0x56#8, 0x04#8] [(4, 0x40#8)] with fl := 0x01#8 } (fun s => s.pc) = some 0x12#9 ∧
    after (at256 0x10 [0x56#8, 0x04#8] [(4, 0x40#8)]) (fun s => s.pc) = some 0x40#9 := by decide

/-! ### The engine, the ports and the host -/

/-- E3, E5: unknown opcodes. -/
theorem test_unknown_opcode :
    after (at256 0 [] []) record = some (.faulted, 3#3, 0#9, 0x00#8, 0#9) ∧
    after (at256 0x20 [0xFF#8] []) record = some (.faulted, 3#3, 0x20#9, 0xFF#8, 0x20#9) := by decide

/-- E6, E7: a fetch and an operand fetch outside memory. -/
theorem test_fetch_outside :
    after (at256 0x100 [] []) record = some (.faulted, 1#3, 0x100#9, 0x00#8, 0x100#9) ∧
    after (at256 0xFE [0x82#8, 0x00#8] []) record = some (.faulted, 1#3, 0xFE#9, 0x82#8, 0x100#9) := by decide

/-- E21: the cell a PUSH would store to is outside memory. -/
theorem test_push_cell_outside :
    after (at_ tiny 0 [0x45#8, 0x00#8] []) record = some (.faulted, 1#3, 0#9, 0x45#8, 0xF3#9) := by decide

/-- E22, E23: the cell a POP would read is outside memory; underflow comes first. -/
theorem test_pop_cell_outside :
    after (at_ tiny 0 [0x46#8, 0x00#8] []) record = some (.faulted, 4#3, 0#9, 0x46#8, 0xF4#9) ∧
    after (at_ tiny 0 [0x46#8, 0x00#8] [(7, 0x20#8)]) record = some (.faulted, 1#3, 0#9, 0x46#8, 0x20#9) := by decide

/-- T5: a load write and a start at one edge. -/
theorem test_load_and_start :
    after { State.reset with
        pins := [{ rst := false, start := true, ldWe := true, ldAddr := 0x00#8, ldData := 0x01#8 }] }
      (fun s => (s.mem.read 0, s.status)) = some (0x01#8, .running) := by decide

/-- E24: a load write outside memory is ignored. -/
theorem test_load_outside_ignored :
    after { State.resetWith tiny with pins := [Pins.load 0x10 0x01#8] } (fun s => (s.mem, s.status)) =
      some ([], .idle) := by decide

/-- T1, T4: a reset leaves Faulted; a start does not. -/
theorem test_reset_leaves_faulted :
    after { at256 3 [] [(0, 5#8)] with status := .faulted, pins := [{ Pins.quiet with rst := true }] }
      (fun s => (s.status, s.pc, s.reg 0, s.sp)) = some (.idle, 0#9, 0#8, 0xF4#8) ∧
    after { at256 3 [] [] with status := .faulted, pins := [Pins.begin] } (fun s => s.status) = some .faulted := by decide

/-- TR1, TR2, TR3. -/
theorem test_trace :
    (at256 3 [0x47#8, 0x00#8, 0x01#8] []).ports.trIbyte = 0x010047#24 ∧
    (at256 0xFF [0x01#8] []).ports.trIbyte = 0x000001#24 ∧ (at256 0xFF [0x01#8] []).ports.trIvalid = 0b001#3 ∧
    (at256 0 [] [(0, 0x11#8)]).ports.trReg = 0xF400000000000011#64 := by decide

/-- A word placed at State.reset runs as the next step. -/
theorem test_withFetchWord :
    after (State.reset.withFetchWord 24 0x080082) (fun s => (s.reg 0, s.pc)) = some (8#8, 3#9) ∧
    after (State.reset.withFetchWord 8 0x47) (fun s => (s.out, s.pc)) = some ([0#8], 2#9) := by decide

theorem test_reset_memory_wf : State.reset.mem.wf = true := rfl

/-! ### Witnesses: concrete states and operands that meet a statement's hypotheses, at the boundaries -/

/-- PRN in the last two cells. -/
theorem witness_StepRunsTheDecodedInstruction :
    (at256 0xFE [0x47#8, 0x03#8] []).Executes ∧
    cellsFrom (at256 0xFE [0x47#8, 0x03#8] []) 0xFE = [0x47#8, 0x03#8] ∧
    decode [0x47#8, 0x03#8] = .ok (.prn 3#8, []) := ⟨by decide, by decide, rfl⟩

theorem witness_FetchOutsideMemoryFaults :
    (at256 256 [] []).Executes ∧ (at256 256 [] []).cfg.memSize ≤ (at256 256 [] []).pc.toNat := by decide

theorem witness_UnlistedOpcodeFaults :
    (at256 0xFF [0xC0#8] []).Executes ∧ (at256 0xFF [0xC0#8] []).pc.toNat < 256 ∧
    (at256 0xFF [0xC0#8] []).mem.read 0xFF ∉ opcodeBytes ∧ (0xC0#8).extractLsb' 6 2 = 3#2 := by decide

theorem witness_RegisterOperandsAreChecked :
    (Instr.jeq 8).registerOperands.find? (fun x => decide (8 ≤ x.toNat)) = some 8#8 ∧
    (Instr.add 7 255).registerOperands.find? (fun x => decide (8 ≤ x.toNat)) = some 255#8 := by decide

theorem witness_DefaultAdvanceComesFromOpcodeBits :
    ∃ t, exec .hlt (at256 0xFF [] []) = .next t ∧ (at256 0xFF [] []).status ≠ .faulted ∧ t.status ≠ .faulted ∧
      Instr.hlt.opcode.getLsbD 4 = false := ⟨_, rfl, by decide, by decide, by decide⟩

theorem witness_HaltedAndFaultedAreLeftOnlyByReset :
    ({ State.reset with status := .halted } : State).cfg.wf = true ∧
    ({ State.reset with status := .halted } : State).nextPins.rst = false ∧
    ({ State.reset with status := .faulted, pins := [{ Pins.quiet with rst := true }] } : State).nextPins.rst = true := by
  decide

/-- The last cell is loaded, the address after it is not. -/
theorem witness_IdleEdgeLoadsAndStarts :
    ({ State.resetWith tiny with pins := [Pins.load 15 1#8] } : State).NoReset ∧
    (State.resetWith tiny).status = .idle ∧ (Pins.load 15 1#8).ldAddr.toNat < tiny.memSize ∧
    ¬ (Pins.load 16 1#8).ldAddr.toNat < tiny.memSize := by decide

theorem witness_ResetSetsEveryListedValue :
    ({ at256 9 [0x01#8] [(2, 3#8)] with pins := [{ Pins.quiet with rst := true }] } : State).cfg.wf = true ∧
    ({ at256 9 [0x01#8] [(2, 3#8)] with pins := [{ Pins.quiet with rst := true }] } : State).nextPins.rst = true := by
  decide

theorem witness_StepAnswersExactlyForLegalSizes :
    Config.wf ⟨1, 0#8⟩ = true ∧ Config.wf ⟨256, 0#8⟩ = true ∧ Config.wf ⟨0, 0#8⟩ = false ∧
    Config.wf ⟨257, 0#8⟩ = false := by decide

/-- A running machine that is about to push. -/
theorem witness_StepKeepsTheInvariant :
    (at256 0 [0x45#8, 0x07#8] []).Inv ∧ ∃ t, step (at256 0 [0x45#8, 0x07#8] []) = .next t :=
  ⟨⟨by decide, by decide, by decide, by decide, by decide, by decide⟩, _, rfl⟩

theorem witness_ResetMeetsTheInvariant : Config.default.wf = true ∧ Config.wf ⟨1, 0xFF#8⟩ = true := by decide

theorem witness_LaunchMeetsTheInvariant : tiny.wf = true := by decide

/-- A fault of the fetch, and one of execution. -/
theorem witness_FaultEntryIsPrecise :
    (at256 256 [] []).Executes ∧ (∃ t, step (at256 256 [] []) = .next t ∧ t.status = .faulted) ∧
    (at256 0 [0x47#8, 0x08#8] []).Executes ∧
    (∃ t, step (at256 0 [0x47#8, 0x08#8] []) = .next t ∧ t.status = .faulted) :=
  ⟨by decide, ⟨_, rfl, by decide⟩, by decide, ⟨_, rfl, by decide⟩⟩

theorem witness_StepNeverWritesTheParameters : ∃ t, step (at_ tiny 0 [0x01#8] []) = .next t := ⟨_, rfl⟩

/-- PRN R7 emits; HLT does not. -/
theorem witness_OutGrowsExactlyWithOutValid :
    (at256 0 [0x47#8, 0x07#8] []).NoReset ∧ after (at256 0 [0x47#8, 0x07#8] []) (·.outValid) = some true ∧
    (at256 0 [0x01#8] []).NoReset ∧ after (at256 0 [0x01#8] []) (·.outValid) = some false := by decide

/-- An image of exactly N bytes. -/
theorem witness_BootReachesTheLaunchState :
    tiny.wf = true ∧ (List.replicate 16 0x01#8).length ≤ tiny.memSize := by decide

theorem witness_HltHaltsForGood :
    (at256 0xFF [0x01#8] []).Executes ∧ (at256 0xFF [0x01#8] []).pc.toNat < 256 ∧
    (at256 0xFF [0x01#8] []).mem.read 0xFF = 0x01#8 ∧ ({ State.reset with status := .halted } : State).NoReset := by
  decide

/-- Register operands on both sides of the bound, for PRN, LDI, MUL, ADD, CMP, PUSH, POP, CALL, JMP, JEQ and JNE. -/
theorem witness_register_operands : (7#8).toNat < 8 ∧ 8 ≤ (8#8).toNat := by decide

/-- The opcode in the last cell: the first operand is missing, for every opcode with operands. -/
theorem witness_operandFetchFaults_first :
    ∀ op ∈ opcodeBytes, 1 ≤ operandCount op →
      (at_ tiny 15 [op] []).Executes ∧ (at_ tiny 15 [op] []).mem.read 15 = op ∧
      (at_ tiny 15 [op] []).cfg.memSize = (at_ tiny 15 [op] []).pc.toNat + 1 := by decide

/-- The opcode in the last cell but one: the second operand is missing. -/
theorem witness_operandFetchFaults_second :
    ∀ op ∈ opcodeBytes, operandCount op = 2 →
      (at_ tiny 14 [op] []).Executes ∧ (at_ tiny 14 [op] []).mem.read 14 = op ∧
      (at_ tiny 14 [op] []).cfg.memSize = (at_ tiny 14 [op] []).pc.toNat + 2 := by decide

/-- PUSH and CALL: the highest cell (15), the lowest (0), overflow, and the first cell outside memory (16). -/
theorem witness_push_clauses :
    (at_ tiny 0 [] [(7, 16#8)]).regs[7] ≠ 0#8 ∧ (at_ tiny 0 [] [(7, 16#8)]).regs[7].toNat - 1 < 16 ∧
    (at_ tiny 0 [] [(7, 1#8)]).regs[7] ≠ 0#8 ∧ (at_ tiny 0 [] [(7, 1#8)]).regs[7].toNat - 1 < 16 ∧
    (at_ tiny 0 [] [(7, 0#8)]).regs[7] = 0#8 ∧
    (at_ tiny 0 [] [(7, 17#8)]).regs[7] ≠ 0#8 ∧ 16 ≤ (at_ tiny 0 [] [(7, 17#8)]).regs[7].toNat - 1 := by decide

/-- POP and RET: the highest cell, underflow, and the first cell outside memory. -/
theorem witness_pop_clauses :
    (at_ tiny 0 [] [(7, 15#8)]).regs[7] ≠ tiny.spInit ∧ (at_ tiny 0 [] [(7, 15#8)]).regs[7].toNat < 16 ∧
    (at_ tiny 0 [] []).regs[7] = tiny.spInit ∧
    (at_ tiny 0 [] [(7, 16#8)]).regs[7] ≠ tiny.spInit ∧ 16 ≤ (at_ tiny 0 [] [(7, 16#8)]).regs[7].toNat := by decide

theorem witness_OnlyCmpWritesFlags :
    (∃ t, exec (.add 0 7) State.reset = .next t) ∧ (∀ a b, Instr.add 0 7 ≠ .cmp a b) ∧ (7#8).toNat < 8 :=
  ⟨⟨_, rfl⟩, nofun, by decide⟩

theorem witness_RegistersWrittenOnlyAsListed :
    (∃ t, exec (.pop 2) (at_ tiny 0 [] [(7, 15#8)]) = .next t) ∧ ¬ mayWrite (.pop 2) 3 :=
  ⟨⟨_, rfl⟩, by simp [mayWrite]⟩

theorem witness_OnlyPushAndCallWriteMemory :
    (∃ t, exec (.pop 2) (at_ tiny 0 [] [(7, 15#8)]) = .next t) ∧ (∀ a, Instr.pop 2 ≠ .push a) ∧
    ∀ a, Instr.pop 2 ≠ .call a := ⟨⟨_, rfl⟩, nofun, nofun⟩

theorem witness_PushAndCallStoreOneByte :
    (at256 0 [] []).mem.wf = true ∧ (at256 0 [] []).status ≠ .faulted ∧ (at256 0 [] []).pushAddr = 0xF3 ∧
    (∃ t, exec (.push 7) (at256 0 [] []) = .next t ∧ t.status ≠ .faulted) ∧
    ∃ t, exec (.call 7) (at256 0 [] []) = .next t ∧ t.status ≠ .faulted :=
  ⟨rfl, by decide, by decide, ⟨_, rfl, by decide⟩, ⟨_, rfl, by decide⟩⟩

theorem witness_SpecialStateFrame :
    (∃ t, exec .hlt State.reset = .next t) ∧ (∃ t, exec (.jmp 9) State.reset = .next t) ∧ Instr.jmp 9 ≠ .hlt :=
  ⟨⟨_, rfl⟩, ⟨_, rfl⟩, nofun⟩

/-- JEQ with another FL of the same bit 0; CMP with any other FL. -/
theorem witness_FlagsReadOnlyByConditionalJumps :
    (∃ t, exec (.jeq 1) State.reset = .next t) ∧ (0xFE#8).getLsbD 0 = State.reset.fl.getLsbD 0 ∧
    (∃ t, exec (.cmp 1 2) State.reset = .next t) ∧ ∀ a, Instr.cmp 1 2 ≠ .jeq a ∧ Instr.cmp 1 2 ≠ .jne a :=
  ⟨⟨_, rfl⟩, by decide, ⟨_, rfl⟩, fun _ => ⟨nofun, nofun⟩⟩

theorem witness_OnlyPopAndRetReadMemory :
    (∃ t, exec .ret (at_ tiny 0 [] [(7, 15#8)]) = .next t) ∧
    Memory.read [(3, 9#8)] 15 = (at_ tiny 0 [] [(7, 15#8)]).mem.read (at_ tiny 0 [] [(7, 15#8)]).sp.toNat ∧
    (∃ t, exec (.push 0) (at256 0 [] []) = .next t) ∧ Instr.push 0 ≠ .ret ∧ ∀ a, Instr.push 0 ≠ .pop a :=
  ⟨⟨_, rfl⟩, by decide, ⟨_, rfl⟩, nofun, nofun⟩

/-- For both round trips: SP = 1 (cell 0) in a memory of 16 cells. -/
theorem witness_round_trips :
    (at_ tiny 0 [] [(7, 1#8)]).mem.wf = true ∧ (7#8).toNat < 8 ∧ (at_ tiny 0 [] [(7, 1#8)]).regs[7] ≠ 0x00#8 ∧
    (at_ tiny 0 [] [(7, 1#8)]).regs[7].toNat - 1 < 16 ∧ (at_ tiny 0 [] [(7, 1#8)]).regs[7] - 1#8 ≠ tiny.spInit := by
  decide

theorem witness_StatementOrderShowsOnRegister7 :
    (at256 0 [] []).mem.wf = true ∧ (at256 0 [] []).regs[7] ≠ 0x00#8 ∧ (at256 0 [] []).regs[7].toNat - 1 < 256 ∧
    (at256 0 [] [(7, 0xFF#8)]).regs[7] ≠ Config.default.spInit ∧ (at256 0 [] [(7, 0xFF#8)]).regs[7].toNat < 256 := by
  decide

/-- P6: PUSH R0 at 8 with SP = 0x0B and x[0] = 0x01. -/
theorem witness_PushedByteIsFetchedNext :
    let s := at256 8 [0x45#8, 0x00#8] [(7, 0x0B#8), (0, 0x01#8)]
    s.Executes ∧ s.mem.wf = true ∧ s.pc.toNat + 2 < s.cfg.memSize ∧ s.mem.read 8 = 0x45#8 ∧ s.mem.read 9 = 0x00#8 ∧
      s.regs[7].toNat = s.pc.toNat + 3 ∧ s.regs[0] = 0x01#8 ∧
      ((nextOf (step s)).map fun t => t.nextPins.rst) = some false := by decide

end Sys2Proof.Tests
end

-- Proofs of 00_scope.md: which steps answer a next state.
section

namespace Sys2Proof.Machine

/-- The legal range as a proposition (00_scope.md R7). -/
theorem config_wf_iff {c : Config} : c.wf = true ↔ 1 ≤ c.memSize ∧ c.memSize ≤ 256 := by
  simp [Config.wf]

theorem config_wf_eq_false_iff {c : Config} : c.wf = false ↔ ¬(1 ≤ c.memSize ∧ c.memSize ≤ 256) := by
  rw [← config_wf_iff, Bool.not_eq_true]

/-- A fault of the fetch is a next state (60_exceptions.md R105); what is fetched is executed. -/
theorem runInstr_answers (s : State) : ∃ t, runInstr s = .next t := by
  cases hf : fetch s with
  | error e => exact ⟨takeFault e.1 e.2 s, by simp only [runInstr, hf]⟩
  | ok i =>
    obtain ⟨t, hexec, -⟩ := exec_cases i s
    exact ⟨t, by simp only [runInstr, hf, hexec]⟩

theorem clockEdge_answers (s : State) : ∃ t, clockEdge s = .next t := by
  cases hr : s.nextPins.rst with
  | true => exact ⟨_, clockEdge_reset hr⟩
  | false =>
    cases hs : s.status with
    | idle => exact ⟨_, clockEdge_idle hr hs⟩
    | running => exact clockEdge_running hr hs ▸ runInstr_answers s.beginEdge
    | halted => exact ⟨_, clockEdge_halted hr hs⟩
    | faulted => exact ⟨_, clockEdge_faulted hr hs⟩

/-- Settles O12: at a legal size the step is a clock edge, which answers in every status; at any other size the step is
refused before the edge begins. -/
theorem stepAnswersExactlyForLegalSizes : Obligations.StepAnswersExactlyForLegalSizes := by
  intro s
  constructor
  · intro hlegal
    exact step_legal (config_wf_iff.2 hlegal) ▸ clockEdge_answers s
  · intro hillegal
    exact step_illegal (config_wf_eq_false_iff.2 hillegal)

end Sys2Proof.Machine
end

-- Proofs of 10_state.md: what an instruction may write of the state, and the invariant of the machine.
section

namespace Sys2Proof.Machine

open Sys2Proof.Claims

/-! ### What a completed instruction does -/

/-- The address after the last byte of `i` at `ia`, where the default advance leads (40_engine.md R73). -/
def nextPc (i : Instr) (ia : PcWord) : PcWord := ia + 1#9 + BitVec.ofNat 9 i.operandBytes.length

/-- The four kinds of effect an instruction has when it does not fault: HLT writes status, PRN writes OUT and the output
port, CMP writes FL, every other instruction only registers, memory and pc. -/
inductive Effect (s : State) : Instr → State → Prop where
  | halts : Effect s .hlt (State.setPc { s with status := .halted } (nextPc .hlt s.pc))
  | emits (a v : Byte) (ha : a.toNat < 8) : Effect s (.prn a) ((s.emit v).setPc (nextPc (.prn a) s.pc))
  | compares (a b x y : Byte) :
      Effect s (.cmp a b) (State.setPc { s with fl := compareFlags x y } (nextPc (.cmp a b) s.pc))
  | computes (i : Instr) (regs : Vector Byte 8) (mem : Memory) (pc : PcWord)
      (hhlt : i ≠ .hlt) (hprn : ∀ a, i ≠ .prn a) (hcmp : ∀ a b, i ≠ .cmp a b)
      (hmem : mem = s.mem ∨ s.pushAddr < s.cfg.memSize ∧ ∃ v, mem = s.mem.write s.pushAddr v)
      (hpc : pc = nextPc i s.pc ∨ ∃ v : Byte, pc = zext9 v) :
      Effect s i { s with regs := regs, mem := mem, pc := pc }

/-- The branch not taken goes where the default advance would (44_branch.md R95, R96). -/
theorem pc_add_two (ia : PcWord) : ia + 2#9 = ia + 1#9 + 1#9 := (BitVec.add_assoc ia 1#9 1#9).symm

theorem Completes.effect {i : Instr} {s t : State} (c : Completes i s t) : Effect s i t := by
  cases i with
  | hlt =>
    obtain rfl := c
    exact .halts
  | ldi _ _ =>
    obtain ⟨_, rfl⟩ := c
    exact .computes _ _ _ _ nofun nofun nofun (.inl rfl) (.inl rfl)
  | prn a =>
    obtain ⟨h, rfl⟩ := c
    exact .emits a _ h
  | mul _ _ =>
    obtain ⟨_, _, rfl⟩ := c
    exact .computes _ _ _ _ nofun nofun nofun (.inl rfl) (.inl rfl)
  | add _ _ =>
    obtain ⟨_, _, rfl⟩ := c
    exact .computes _ _ _ _ nofun nofun nofun (.inl rfl) (.inl rfl)
  | push _ =>
    obtain ⟨_, _, hn, rfl⟩ := c
    exact .computes _ _ _ _ nofun nofun nofun (.inr ⟨hn, _, rfl⟩) (.inl rfl)
  | pop _ =>
    obtain ⟨_, _, _, rfl⟩ := c
    exact .computes _ _ _ _ nofun nofun nofun (.inl rfl) (.inl rfl)
  | call _ =>
    obtain ⟨_, _, hn, rfl⟩ := c
    exact .computes _ _ _ _ nofun nofun nofun (.inr ⟨hn, _, rfl⟩) (.inr ⟨_, rfl⟩)
  | ret =>
    obtain ⟨_, _, rfl⟩ := c
    exact .computes _ _ _ _ nofun nofun nofun (.inl rfl) (.inr ⟨_, rfl⟩)
  | cmp a b =>
    obtain ⟨_, _, rfl⟩ := c
    exact .compares a b _ _
  | jeq _ =>
    obtain ⟨_, rfl⟩ := c
    refine .computes _ _ _ _ nofun nofun nofun (.inl rfl) ?_
    cases flagE s.fl with
    | true => exact .inr ⟨_, rfl⟩
    | false => exact .inl (pc_add_two s.pc)
  | jne _ =>
    obtain ⟨_, rfl⟩ := c
    refine .computes _ _ _ _ nofun nofun nofun (.inl rfl) ?_
    cases flagE s.fl with
    | true => exact .inl (pc_add_two s.pc)
    | false => exact .inr ⟨_, rfl⟩
  | jmp _ =>
    obtain ⟨_, rfl⟩ := c
    exact .computes _ _ _ _ nofun nofun nofun (.inl rfl) (.inr ⟨_, rfl⟩)

/-- Everything an instruction can answer, by kind of effect. -/
theorem exec_effect {i : Instr} {s t : State} (h : exec i s = .next t) : FaultsAs i s t ∨ Effect s i t :=
  (exec_inv h).imp_right Completes.effect

theorem exec_cfg {i : Instr} {s t : State} (h : exec i s = .next t) : t.cfg = s.cfg := by
  rcases exec_effect h with ⟨_, _, rfl⟩ | e
  · rfl
  · cases e <;> rfl

theorem exec_pins {i : Instr} {s t : State} (h : exec i s = .next t) : t.pins = s.pins := by
  rcases exec_effect h with ⟨_, _, rfl⟩ | e
  · rfl
  · cases e <;> rfl

/-! ### The parameters -/

theorem runInstr_cfg {s t : State} (h : runInstr s = .next t) : t.cfg = s.cfg := by
  rcases runInstr_inv h with ⟨_, rfl, -⟩ | ⟨_, -, -, hexec⟩
  · rfl
  · exact exec_cfg hexec

theorem step_cfg {s t : State} (h : step s = .next t) : t.cfg = s.cfg := by
  obtain ⟨-, ⟨-, rfl⟩ | ⟨-, -, rfl⟩ | ⟨-, -, rfl⟩ | ⟨-, -, hrun⟩⟩ := step_inv h
  · rfl
  · rfl
  · rfl
  · exact (runInstr_cfg hrun).trans s.beginEdge_cfg

/-- Settles O17: the configuration as a whole is kept by each of the four things a step can do. -/
theorem stepNeverWritesTheParameters : Obligations.StepNeverWritesTheParameters := by
  intro s t h
  rw [step_cfg h]
  exact ⟨rfl, rfl⟩

/-! ### The flags -/

theorem compareFlags_cases (x y : Byte) :
    compareFlags x y = 0x01#8 ∨ compareFlags x y = 0x02#8 ∨ compareFlags x y = 0x04#8 := by
  unfold compareFlags
  split_ifs <;> simp

theorem exec_fl {i : Instr} {s t : State} (h : exec i s = .next t) (hcmp : ∀ a b, i ≠ .cmp a b) : t.fl = s.fl := by
  rcases exec_effect h with ⟨_, _, rfl⟩ | e
  · rfl
  · cases e with
    | compares a b => exact absurd rfl (hcmp a b)
    | _ => rfl

/-- Settles O34: CMP is the one kind of effect that writes FL, with a value of `compareFlags`. -/
theorem onlyCmpWritesFlags : Obligations.OnlyCmpWritesFlags := by
  refine ⟨fun i s t h hcmp => exec_fl h hcmp, fun s a b ha hb => ?_⟩
  rcases execCmp_cases a b s with ⟨h, _⟩ | ⟨_, h, _⟩ | ⟨_, _, hcmp⟩
  · exact absurd h (Nat.not_le.2 ha)
  · exact absurd h (Nat.not_le.2 hb)
  · exact ⟨_, hcmp, compareFlags_cases _ _⟩

/-! ### The special state -/

theorem Effect.out_eq {i : Instr} {s t : State} (e : Effect s i t) (hprn : ∀ a, i ≠ .prn a) :
    t.out = s.out ∧ t.outValid = s.outValid ∧ t.outData = s.outData := by
  cases e with
  | emits a => exact absurd rfl (hprn a)
  | _ => exact ⟨rfl, rfl, rfl⟩

theorem Effect.faultRecord_eq {i : Instr} {s t : State} (e : Effect s i t) :
    t.fcause = s.fcause ∧ t.fpc = s.fpc ∧ t.fop = s.fop ∧ t.faddr = s.faddr := by
  cases e <;> exact ⟨rfl, rfl, rfl, rfl⟩

theorem Effect.status_halted {s t : State} (e : Effect s .hlt t) : t.status = .halted := by
  cases e with
  | halts => rfl
  | computes _ _ _ _ hhlt => exact absurd rfl hhlt

theorem Effect.status_eq {i : Instr} {s t : State} (e : Effect s i t) (hhlt : i ≠ .hlt) : t.status = s.status := by
  cases e with
  | halts => exact absurd rfl hhlt
  | _ => rfl

/-- Settles O38: a fault is the disjunct on the left; every other frame is read off the kind of effect. -/
theorem specialStateFrame : Obligations.SpecialStateFrame := by
  intro i s t h
  refine ⟨exec_cfg h, exec_pins h, ?_⟩
  rcases exec_effect h with ⟨r, -, rfl⟩ | e
  · exact ⟨fun _ => ⟨rfl, rfl, rfl⟩, .inl ⟨r.cause, r.addr, rfl⟩⟩
  · obtain ⟨hcause, hfpc, hfop, haddr⟩ := e.faultRecord_eq
    exact ⟨e.out_eq, .inr ⟨hcause, hfpc, hfop, haddr, fun hi => (hi ▸ e).status_halted, e.status_eq⟩⟩

/-! ### The registers -/

theorem reg_setReg_named {s : State} {a : Byte} {r : Fin 8} (h : a.toNat < 8) (v : Byte) (hr : a.toNat ≠ r.val) :
    (s.setReg ⟨a.toNat, h⟩ v).reg r = s.reg r :=
  State.reg_setReg_other s v fun e => hr (congrArg Fin.val e).symm

theorem reg_popIncrement {s : State} {r : Fin 8} (hr : r ≠ 7) : (popIncrement s).reg r = s.reg r :=
  State.reg_setReg_other s _ hr

theorem Completes.reg_eq {i : Instr} {s t : State} {r : Fin 8} (c : Completes i s t) (hr : ¬ mayWrite i r) :
    t.reg r = s.reg r := by
  cases i with
  | hlt =>
    obtain rfl := c
    rfl
  | ldi _ _ =>
    obtain ⟨h, rfl⟩ := c
    exact reg_setReg_named h _ hr
  | prn _ =>
    obtain ⟨_, rfl⟩ := c
    rfl
  | mul _ _ =>
    obtain ⟨h, _, rfl⟩ := c
    exact reg_setReg_named h _ hr
  | add _ _ =>
    obtain ⟨h, _, rfl⟩ := c
    exact reg_setReg_named h _ hr
  | push _ =>
    obtain ⟨_, _, _, rfl⟩ := c
    exact State.reg_setReg_other s _ hr
  | pop _ =>
    obtain ⟨h, _, _, rfl⟩ := c
    obtain ⟨hdest, hsp⟩ := not_or.1 hr
    exact (reg_popIncrement hsp).trans (reg_setReg_named h _ hdest)
  | call _ =>
    obtain ⟨_, _, _, rfl⟩ := c
    exact State.reg_setReg_other s _ hr
  | ret =>
    obtain ⟨_, _, rfl⟩ := c
    exact reg_popIncrement hr
  | cmp _ _ =>
    obtain ⟨_, _, rfl⟩ := c
    rfl
  | jeq _ =>
    obtain ⟨_, rfl⟩ := c
    rfl
  | jne _ =>
    obtain ⟨_, rfl⟩ := c
    rfl
  | jmp _ =>
    obtain ⟨_, rfl⟩ := c
    rfl

/-- Settles O35: a fault writes no register, and a completed instruction only those of `mayWrite`. -/
theorem registersWrittenOnlyAsListed : Obligations.RegistersWrittenOnlyAsListed := by
  intro i s t r h hr
  rcases exec_inv h with ⟨_, _, rfl⟩ | c
  · rfl
  · exact c.reg_eq hr

/-! ### The output -/

/-- The next instruction is a PRN of a register, all of it below N. -/
def RunsPrn (s : State) : Prop :=
  s.pc.toNat + 1 < s.cfg.memSize ∧ s.mem.read s.pc.toNat = 0x47#8 ∧ (s.mem.read (s.pc.toNat + 1)).toNat < 8

/-- `t` leaves OUT as in `s`, and no value on the output port. -/
def Silent (s t : State) : Prop := t.out = s.out ∧ t.outValid = false

/-- `t` has one value more in OUT than `s`, the one on the output port. -/
def Emitted (s t : State) : Prop := t.out = s.out ++ [t.outData] ∧ t.outValid = true

theorem runInstr_of_runsPrn {s : State} (h : RunsPrn s) :
    runInstr s = execPrn (s.mem.read (s.pc.toNat + 1)) s := by
  obtain ⟨hn, hop, -⟩ := h
  have hfetch : fetch s = .ok (.prn (s.mem.read (s.pc.toNat + 1))) := by
    rw [fetch_known (by omega) (hop ▸ rfl : lookup _ = some fun a _ => .prn a), hop,
      show decide (1 ≤ operandCount 0x47#8) = true by decide,
      show decide (operandCount 0x47#8 = 2) = false by decide, fetchOperand_ok _ hn, fetchOperand_absent]
    rfl
  simp only [runInstr, hfetch, exec]

theorem runsPrn_emits {s t : State} (hprn : RunsPrn s) (h : runInstr s = .next t) : Emitted s t := by
  rw [runInstr_of_runsPrn hprn] at h
  rcases execPrn_cases (s.mem.read (s.pc.toNat + 1)) s with ⟨ha, _⟩ | ⟨_, e⟩
  · exact absurd hprn.2.2 (Nat.not_lt.2 ha)
  · rw [e] at h
    cases h
    exact ⟨rfl, rfl⟩

/-- What was fetched is a PRN only where its two bytes stand. -/
theorem runsPrn_of_lookup {s : State} {mk : Byte → Byte → Instr} {a : Byte}
    (hl : lookup (s.mem.read s.pc.toNat) = some mk)
    (hn : s.pc.toNat + operandCount (s.mem.read s.pc.toNat) < s.cfg.memSize)
    (hmk : mk (s.mem.read (s.pc.toNat + 1)) (s.mem.read (s.pc.toNat + 2)) = .prn a) (ha : a.toNat < 8) :
    RunsPrn s := by
  have hop := lookup_opcode hl (s.mem.read (s.pc.toNat + 1)) (s.mem.read (s.pc.toNat + 2))
  have hbytes := lookup_operandBytes hl (s.mem.read (s.pc.toNat + 1)) (s.mem.read (s.pc.toNat + 2))
  rw [hmk] at hop hbytes
  have hcount : operandCount (s.mem.read s.pc.toNat) = 1 :=
    hop ▸ show operandCount 0x47#8 = 1 by decide
  rw [hcount] at hn hbytes
  obtain rfl : a = s.mem.read (s.pc.toNat + 1) := List.head_eq_of_cons_eq hbytes
  exact ⟨hn, hop.symm, ha⟩

theorem runInstr_silent {s t : State} (hv : s.outValid = false) (hprn : ¬ RunsPrn s) (h : runInstr s = .next t) :
    Silent s t := by
  rcases runInstr_inv h with ⟨_, rfl, -⟩ | ⟨mk, hl, hn, hexec⟩
  · exact ⟨rfl, hv⟩
  · rcases exec_effect hexec with ⟨_, -, rfl⟩ | e
    · exact ⟨rfl, hv⟩
    · generalize hi : mk _ _ = i at e
      cases e with
      | emits a _ ha => exact absurd (runsPrn_of_lookup hl hn hi ha) hprn
      | _ => exact ⟨rfl, hv⟩

/-- Everything a step without a reset does to the output: a PRN emits, anything else is silent. -/
theorem step_output {s t : State} (hr : s.nextPins.rst = false) (h : step s = .next t) :
    (s.status = .running ∧ RunsPrn s ∧ Emitted s t) ∨ (¬(s.status = .running ∧ RunsPrn s) ∧ Silent s t) := by
  obtain ⟨-, ⟨hrst, -⟩ | ⟨-, hs, rfl⟩ | ⟨-, hs, rfl⟩ | ⟨-, hs, hrun⟩⟩ := step_inv h
  · exact absurd hrst (by simp [hr])
  · exact .inr ⟨by simp [hs], rfl, rfl⟩
  · exact .inr ⟨by rcases hs with hs | hs <;> simp [hs], rfl, rfl⟩
  · by_cases hprn : RunsPrn s
    · exact .inl ⟨hs, hprn, runsPrn_emits (s := s.beginEdge) hprn hrun⟩
    · exact .inr ⟨fun hc => hprn hc.2, runInstr_silent (s := s.beginEdge) rfl hprn hrun⟩

/-- Settles O18: a step emits, and then runs a PRN, or it is silent, and then does not. -/
theorem outGrowsExactlyWithOutValid : Obligations.OutGrowsExactlyWithOutValid := by
  intro s t hs h
  rcases step_output hs.2 h with ⟨hrun, hprn, hout, hvalid⟩ | ⟨hnot, hout, hvalid⟩
  · rw [hvalid]
    exact ⟨hout, iff_of_true rfl ⟨hrun, hprn⟩⟩
  · rw [hvalid]
    exact ⟨hout.trans (List.append_nil _).symm, iff_of_false nofun hnot⟩

/-! ### FL is read by the conditional jumps only -/

/-- `s` with another FL. -/
def State.setFl (s : State) (f : Byte) : State := { s with fl := f }

/-- Two handlers' results that differ in FL alone: the same fault, or states alike but for FL. -/
inductive AlikeButFl : Except Raise State → Except Raise State → Prop where
  | error (e : Raise) : AlikeButFl (.error e) (.error e)
  | ok (u : State) (g : Byte) : AlikeButFl (.ok u) (.ok (u.setFl g))

/-- A handler's reads of operands and memory do not look at FL. -/
theorem AlikeButFl.read {α : Type} (x : Except Raise α) {k k' : α → Except Raise State}
    (h : ∀ v, AlikeButFl (k v) (k' v)) : AlikeButFl (x >>= k) (x >>= k') := by
  cases x with
  | error e => exact .error e
  | ok v => exact h v

theorem AlikeButFl.bind {x x' : Except Raise State} {k k' : State → Except Raise State} (hx : AlikeButFl x x')
    (h : ∀ u g, AlikeButFl (k u) (k' (u.setFl g))) : AlikeButFl (x >>= k) (x' >>= k') := by
  cases hx with
  | error e => exact .error e
  | ok u g => exact h u g

theorem push_alike (s : State) (f : Byte) (v : State → Byte) (hv : ∀ u g, v (State.setFl u g) = v u) :
    AlikeButFl (push s v) (push (s.setFl f) v) := by
  rcases push_cases s v with ⟨h, e⟩ | ⟨h, hn, e⟩ | ⟨h, hn, e⟩ <;> rw [e]
  · exact push_overflow (s := s.setFl f) v h ▸ .error _
  · exact push_outside (s := s.setFl f) v h hn ▸ .error _
  · rw [push_ok (s := s.setFl f) v h hn, ← hv (s.setReg spIndex (s.sp - 1#8)) f]
    exact .ok _ f

/-- The outcomes of an instruction from two states that differ in FL alone answer states that do. -/
def OutcomesAlikeButFl (o o' : Host.Outcome State Fault Refusal) : Prop :=
  ∃ t g, o = .next t ∧ o' = .next (t.setFl g)

theorem advance_setFl (op : Byte) (ia : PcWord) (u : State) (g : Byte) :
    advance op ia (u.setFl g) = (advance op ia u).setFl g := by
  unfold advance
  split <;> rfl

theorem AlikeButFl.complete {op : Byte} {s : State} {f : Byte} {x x' : Except Raise State} (h : AlikeButFl x x') :
    OutcomesAlikeButFl (complete op s x) (complete op (s.setFl f) x') := by
  cases h with
  | error e => exact ⟨_, f, rfl, rfl⟩
  | ok u g => exact ⟨_, g, rfl, congrArg _ (advance_setFl op s.pc u g)⟩

theorem exec_alike (i : Instr) (s : State) (f : Byte)
    (h : flagE f = flagE s.fl ∨ ∀ a, i ≠ .jeq a ∧ i ≠ .jne a) :
    OutcomesAlikeButFl (exec i s) (exec i (s.setFl f)) := by
  cases i with
  | hlt => exact (AlikeButFl.ok _ f).complete
  | ldi a b => exact (AlikeButFl.read (regIndex a) fun _ => .ok _ f).complete
  | prn a => exact (AlikeButFl.read (regIndex a) fun _ => .ok _ f).complete
  | mul a b => exact (AlikeButFl.read (regIndex a) fun _ => .read (regIndex b) fun _ => .ok _ f).complete
  | add a b => exact (AlikeButFl.read (regIndex a) fun _ => .read (regIndex b) fun _ => .ok _ f).complete
  | push a => exact (AlikeButFl.read (regIndex a) fun _ => push_alike s f _ fun _ _ => rfl).complete
  | pop a => exact (AlikeButFl.read (regIndex a) fun _ => .read (popRead s) fun _ => .ok _ f).complete
  | call a =>
    have hpush := push_alike s f (fun _ => returnByte s.pc) fun _ _ => rfl
    exact AlikeButFl.complete (.read (regIndex a) fun ra => hpush.bind fun u g => .ok (u.setPc (regTarget u ra)) g)
  | ret => exact (AlikeButFl.read (popRead s) fun _ => .ok _ f).complete
  | cmp a b => exact (AlikeButFl.read (regIndex a) fun _ => .read (regIndex b) fun _ => .ok _ _).complete
  | jeq a =>
    have hf : flagE f = flagE s.fl := h.resolve_right fun hne => (hne a).1 rfl
    exact (AlikeButFl.read (regIndex a) fun _ => hf ▸ .ok _ f).complete
  | jne a =>
    have hf : flagE f = flagE s.fl := h.resolve_right fun hne => (hne a).2 rfl
    exact (AlikeButFl.read (regIndex a) fun _ => hf ▸ .ok _ f).complete
  | jmp a => exact (AlikeButFl.read (regIndex a) fun _ => .ok _ f).complete

/-- Settles O39: the outcomes differ in FL alone, which the statement then puts back. -/
theorem flagsReadOnlyByConditionalJumps : Obligations.FlagsReadOnlyByConditionalJumps := by
  intro i s t f h hf
  obtain ⟨t', g, e, e'⟩ := exec_alike i s f hf
  rw [h] at e
  cases e
  exact ⟨_, e', rfl⟩

/-! ### The invariant -/

/-- An edge consumes its inputs and drops out_valid, which the invariant allows. -/
theorem State.Inv.beginEdge {s : State} (hs : s.Inv) : s.beginEdge.Inv :=
  { hs with output := nofun }

theorem applyReset_inv {s : State} (hwf : s.cfg.wf = true) : (applyReset s).Inv where
  memory := ⟨hwf, rfl, nofun⟩
  pc := Nat.zero_le _
  flags := .inl rfl
  faultRecord := ⟨fun _ => ⟨rfl, rfl, rfl, rfl⟩, nofun⟩
  output := nofun
  idle := fun _ => ⟨rfl, rfl, rfl, rfl⟩

/-- A write within N keeps memory canonical and within N. -/
theorem State.MemoryOk.write {s : State} (hm : s.MemoryOk) {a : Nat} (ha : a < s.cfg.memSize) (v : Byte) :
    State.MemoryOk { s with mem := s.mem.write a v } := by
  obtain ⟨hwf, hcanon, hbelow⟩ := hm
  refine ⟨hwf, Memory.wf_write hcanon a v, fun c hc => ?_⟩
  rcases Memory.mem_write hc with hold | hnew
  · exact hbelow c hold
  · exact hnew ▸ ha

/-- A load write within N or none, and a start or none: Idle's values still stand, and Running asks nothing of them. -/
theorem idleEdge_inv {s : State} (hs : s.Inv) (hidle : s.status = .idle) (hv : s.outValid = false) (p : Pins) :
    (idleEdge p s).Inv where
  memory := by
    unfold idleEdge
    split
    · next hld =>
      rw [Bool.and_eq_true, decide_eq_true_eq] at hld
      exact hs.memory.write hld.2 p.ldData
    · exact hs.memory
  pc := hs.pc
  flags := hs.flags
  faultRecord := by
    have hrecord := hs.faultRecord.1 (by simp [hidle])
    unfold idleEdge
    cases p.start with
    | true => exact ⟨fun _ => hrecord, nofun⟩
    | false => exact ⟨fun _ => hrecord, nofun⟩
  output := fun h => absurd (hv.symm.trans h) nofun
  idle := fun _ => hs.idle hidle

theorem Fault.code_bounds (c : Fault) : 1 ≤ c.code.toNat ∧ c.code.toNat ≤ 5 := by
  cases c <;> decide

theorem takeFault_inv {s : State} (hs : s.Inv) (hv : s.outValid = false) (op : Byte) {e : Raise}
    (he : e.addr.toNat ≤ 257) : (takeFault op e s).Inv where
  memory := hs.memory
  pc := hs.pc
  flags := hs.flags
  faultRecord := ⟨fun h => absurd rfl h, fun _ => ⟨e.cause.code_bounds.1, e.cause.code_bounds.2, rfl, he⟩⟩
  output := fun h => absurd (hv.symm.trans h) nofun
  idle := nofun

theorem Effect.memory {i : Instr} {s t : State} (e : Effect s i t) (hm : s.MemoryOk) : t.MemoryOk := by
  cases e with
  | computes _ regs mem pc _ _ _ hmem =>
    rcases hmem with rfl | ⟨hn, v, rfl⟩
    · exact hm
    · exact hm.write hn v
  | _ => exact hm

theorem nextPc_le {i : Instr} {ia : PcWord} {n : Nat} (hn : n ≤ 256) (h : ia.toNat + i.operandBytes.length < n) :
    (nextPc i ia).toNat ≤ n := by
  simp only [nextPc, BitVec.toNat_add, BitVec.toNat_ofNat]
  omega

/-- An instruction below N leaves pc at most N, at its default advance, or at an 8-bit target (10_state.md R26). -/
theorem Effect.pc {i : Instr} {s t : State} (e : Effect s i t) (hm : s.MemoryOk)
    (hn : s.pc.toNat + i.operandBytes.length < s.cfg.memSize) : t.PcOk := by
  have hnext := Nat.le_trans (nextPc_le (config_wf_iff.1 hm.1).2 hn) (Nat.le_max_left s.cfg.memSize 255)
  cases e with
  | computes _ regs mem pc _ _ _ _ hpc =>
    rcases hpc with rfl | ⟨v, rfl⟩
    · exact hnext
    · exact Nat.le_trans (zext9_le v) (Nat.le_max_right ..)
  | _ => exact hnext

theorem Effect.flags {i : Instr} {s t : State} (e : Effect s i t) (hf : s.FlagsOk) : t.FlagsOk := by
  cases e with
  | compares _ _ x y => exact .inr (compareFlags_cases x y)
  | _ => exact hf

/-- A completed instruction leaves a Running core Running or Halted. -/
theorem Effect.status_live {i : Instr} {s t : State} (e : Effect s i t) (hrun : s.status = .running) :
    t.status ≠ .idle ∧ t.status ≠ .faulted := by
  cases e with
  | halts => exact ⟨nofun, nofun⟩
  | _ => exact (hrun ▸ ⟨nofun, nofun⟩ : s.status ≠ .idle ∧ s.status ≠ .faulted)

theorem Effect.output {i : Instr} {s t : State} (e : Effect s i t) (hrun : s.status = .running)
    (hv : s.outValid = false) : t.OutputOk := by
  cases e with
  | emits => exact fun _ => ⟨hrun, List.getLast?_concat⟩
  | _ => exact fun h => absurd (hv.symm.trans h) nofun

theorem Effect.inv {i : Instr} {s t : State} (e : Effect s i t) (hs : s.Inv) (hrun : s.status = .running)
    (hv : s.outValid = false) (hn : s.pc.toNat + i.operandBytes.length < s.cfg.memSize) : t.Inv where
  memory := e.memory hs.memory
  pc := e.pc hs.memory hn
  flags := e.flags hs.flags
  faultRecord := by
    obtain ⟨hcause, hfpc, hfop, haddr⟩ := e.faultRecord_eq
    rw [State.FaultRecordOk, hcause, hfpc, hfop, haddr]
    exact ⟨fun _ => hs.faultRecord.1 (by simp [hrun]), fun h => absurd h (e.status_live hrun).2⟩
  output := e.output hrun hv
  idle := fun h => absurd h (e.status_live hrun).1

theorem exec_keeps_inv {i : Instr} {s t : State} (hs : s.Inv) (hrun : s.status = .running)
    (hv : s.outValid = false) (hn : s.pc.toNat + i.operandBytes.length < s.cfg.memSize) (h : exec i s = .next t) :
    t.Inv := by
  rcases exec_effect h with ⟨_, he, rfl⟩ | e
  · exact takeFault_inv hs hv _ (by omega)
  · exact e.inv hs hrun hv hn

/-- An instruction has no more operand bytes than its opcode counts. -/
theorem lookup_operandBytes_length_le {op : Byte} {mk : Byte → Byte → Instr} (h : lookup op = some mk) (a b : Byte) :
    (mk a b).operandBytes.length ≤ operandCount op :=
  lookup_operandBytes h a b ▸ List.length_take_le ..

theorem runInstr_keeps_inv {s t : State} (hs : s.Inv) (hrun : s.status = .running) (hv : s.outValid = false)
    (h : runInstr s = .next t) : t.Inv := by
  rcases runInstr_inv h with ⟨e, rfl, he⟩ | ⟨mk, hl, hn, hexec⟩
  · have hpc : s.pc.toNat ≤ max s.cfg.memSize 255 := hs.pc
    have hsize := (config_wf_iff.1 hs.memory.1).2
    exact takeFault_inv hs hv _ (by omega)
  · have hlen := lookup_operandBytes_length_le hl (s.mem.read (s.pc.toNat + 1)) (s.mem.read (s.pc.toNat + 2))
    exact exec_keeps_inv hs hrun hv (by omega) hexec

/-- Settles O13: each of the four things a step can do keeps the invariant, which holds of the state the edge begins
with. -/
theorem stepKeepsTheInvariant : Obligations.StepKeepsTheInvariant := by
  intro s t hs h
  have hbegin := hs.beginEdge
  obtain ⟨hwf, ⟨-, rfl⟩ | ⟨-, hidle, rfl⟩ | ⟨-, -, rfl⟩ | ⟨-, hrun, h⟩⟩ := step_inv h
  · exact applyReset_inv hwf
  · exact idleEdge_inv hbegin hidle rfl s.nextPins
  · exact hbegin
  · exact runInstr_keeps_inv hbegin hrun rfl h

end Sys2Proof.Machine
end

-- Proofs of 20_memory.md: which instructions write memory, and which read it.
section

namespace Sys2Proof.Machine

open Sys2Proof.Claims

/-! ### What an instruction writes of memory -/

theorem Completes.mem_eq {i : Instr} {s t : State} (c : Completes i s t) (hpush : ∀ a, i ≠ .push a)
    (hcall : ∀ a, i ≠ .call a) : t.mem = s.mem := by
  cases i with
  | hlt =>
    obtain rfl := c
    rfl
  | push a => exact absurd rfl (hpush a)
  | call a => exact absurd rfl (hcall a)
  | ret =>
    obtain ⟨_, _, rfl⟩ := c
    rfl
  | pop _ =>
    obtain ⟨_, _, _, rfl⟩ := c
    rfl
  | mul _ _ | add _ _ | cmp _ _ =>
    obtain ⟨_, _, rfl⟩ := c
    rfl
  | ldi _ _ | prn _ | jeq _ | jne _ | jmp _ =>
    obtain ⟨_, rfl⟩ := c
    rfl

/-- Settles O36: a fault and a completed instruction that pushes nothing leave the memory itself. -/
theorem onlyPushAndCallWriteMemory : Obligations.OnlyPushAndCallWriteMemory := by
  intro i s t h hpush hcall addr
  rcases exec_inv h with ⟨_, _, rfl⟩ | c
  · rfl
  · rw [c.mem_eq hpush hcall]

/-- The one cell an instruction may write is the one a push stores to. -/
theorem exec_mem_cases {i : Instr} {s t : State} (h : exec i s = .next t) :
    t.mem = s.mem ∨ ∃ v, t.mem = s.mem.write s.pushAddr v := by
  rcases exec_effect h with ⟨_, _, rfl⟩ | e
  · exact .inl rfl
  · cases e with
    | computes _ _ _ _ _ _ _ hmem => exact hmem.imp_right And.right
    | _ => exact .inl rfl

theorem exec_read_other {i : Instr} {s t : State} {addr : Nat} (h : exec i s = .next t) (ha : addr ≠ s.pushAddr) :
    t.mem.read addr = s.mem.read addr := by
  rcases exec_mem_cases h with e | ⟨v, e⟩ <;> rw [e]
  exact Memory.read_write_other _ v ha

theorem exec_completes {i : Instr} {s t : State} (h : exec i s = .next t) (ht : t.status ≠ .faulted) :
    Completes i s t := by
  rcases exec_inv h with ⟨_, _, rfl⟩ | c
  · exact absurd rfl ht
  · exact c

theorem afterPush_read {s : State} (hm : s.mem.wf = true) (v : State → Byte) :
    (afterPush s v).mem.read s.pushAddr = v (s.setReg spIndex (s.sp - 1#8)) :=
  Memory.read_write_same hm _ _

theorem returnByte_eq (ia : PcWord) : returnByte ia = BitVec.ofNat 8 ((ia.toNat + 2) % 256) :=
  BitVec.eq_of_toNat_eq (by simp [returnByte])

/-- Settles O37: the store of a push is the only write, and what completes without a fault has made it. -/
theorem pushAndCallStoreOneByte : Obligations.PushAndCallStoreOneByte := by
  rintro s t _ addr r rfl h
  refine ⟨fun ha => h.elim (exec_read_other · ha) (exec_read_other · ha), fun hm _ ht => ?_⟩
  refine ⟨fun _ hpush => ?_, fun hcall => ?_⟩
  · obtain ⟨_, _, _, rfl⟩ := exec_completes hpush ht
    exact afterPush_read hm fun s₁ => s₁.reg ⟨r.toNat, _⟩
  · obtain ⟨_, _, _, rfl⟩ := exec_completes hcall ht
    exact (afterPush_read hm fun _ => returnByte s.pc).trans (returnByte_eq s.pc)

/-! ### Memory is read by POP and RET only -/

/-- `s` with another memory. -/
def State.setMem (s : State) (m : Memory) : State := { s with mem := m }

/-- Two outcomes that differ in memory alone. -/
inductive AlikeButMem : Host.Outcome State Fault Refusal → Host.Outcome State Fault Refusal → Prop where
  | next (t : State) (m : Memory) : AlikeButMem (.next t) (.next (t.setMem m))

theorem AlikeButMem.fault (op : Byte) (s : State) (m : Memory) (e : Raise) :
    AlikeButMem (complete op s (.error e)) (complete op (s.setMem m) (.error e)) := .next _ m

/-- A value read alike in both memories, an operand or a popped byte, leads to outcomes alike but for memory if what
follows it does. -/
theorem AlikeButMem.read {α : Type} {op : Byte} {s : State} {m : Memory} (x : Except Raise α)
    {k k' : α → Except Raise State} (h : ∀ v, AlikeButMem (complete op s (k v)) (complete op (s.setMem m) (k' v))) :
    AlikeButMem (complete op s (x >>= k)) (complete op (s.setMem m) (x >>= k')) := by
  cases x with
  | error e => exact .fault op s m e
  | ok v => exact h v

/-- The checks of a push do not look at memory, and the value it stores goes to memory alone. -/
theorem AlikeButMem.push {op : Byte} {s : State} {m : Memory} {v : State → Byte} {k k' : State → Except Raise State}
    (h : ∀ u m', AlikeButMem (complete op s (k u)) (complete op (s.setMem m) (k' (u.setMem m')))) :
    AlikeButMem (complete op s (push s v >>= k)) (complete op (s.setMem m) (push (s.setMem m) v >>= k')) := by
  rcases push_cases s v with ⟨h0, e⟩ | ⟨h0, hn, e⟩ | ⟨h0, hn, e⟩ <;> rw [e]
  · rw [push_overflow (s := s.setMem m) v h0]
    exact .fault op s m _
  · rw [push_outside (s := s.setMem m) v h0 hn]
    exact .fault op s m _
  · rw [push_ok (s := s.setMem m) v h0 hn]
    exact h _ _

theorem popRead_setMem {s : State} {m : Memory} (h : m.read s.sp.toNat = s.mem.read s.sp.toNat) :
    popRead (s.setMem m) = popRead s := by
  rcases popRead_cases s with ⟨h0, e⟩ | ⟨h0, hn, e⟩ | ⟨h0, hn, e⟩ <;> rw [e]
  · exact popRead_underflow (s := s.setMem m) h0
  · exact popRead_outside (s := s.setMem m) h0 hn
  · exact (popRead_ok (s := s.setMem m) h0 hn).trans (congrArg _ h)

theorem AlikeButMem.pop {op : Byte} {s : State} {m : Memory} {k k' : Byte → Except Raise State}
    (hcell : m.read s.sp.toNat = s.mem.read s.sp.toNat)
    (h : ∀ v, AlikeButMem (complete op s (k v)) (complete op (s.setMem m) (k' v))) :
    AlikeButMem (complete op s (popRead s >>= k)) (complete op (s.setMem m) (popRead (s.setMem m) >>= k')) := by
  rw [popRead_setMem hcell]
  exact .read _ h

theorem exec_alikeButMem (i : Instr) (s : State) (m : Memory)
    (h : m.read s.sp.toNat = s.mem.read s.sp.toNat ∨ (i ≠ .ret ∧ ∀ a, i ≠ .pop a)) :
    AlikeButMem (exec i s) (exec i (s.setMem m)) := by
  cases i with
  | hlt => exact .next _ m
  | ldi a _ | prn a | jeq a | jne a | jmp a => exact .read (regIndex a) fun _ => .next _ m
  | mul a b | add a b | cmp a b => exact .read (regIndex a) fun _ => .read (regIndex b) fun _ => .next _ m
  | push a =>
    refine .read (regIndex a) fun _ => ?_
    rw [← bind_pure (push s _), ← bind_pure (push (s.setMem m) _)]
    exact .push fun _ m' => .next _ m'
  | call a => exact .read (regIndex a) fun _ => .push fun _ m' => .next _ m'
  | pop a =>
    have hcell := h.resolve_right fun hne => hne.2 a rfl
    exact .read (regIndex a) fun _ => .pop hcell fun _ => .next _ m
  | ret =>
    have hcell := h.resolve_right fun hne => hne.1 rfl
    exact .pop hcell fun _ => .next _ m

/-- Settles O40: the outcomes differ in memory alone, which the statement then puts back. -/
theorem onlyPopAndRetReadMemory : Obligations.OnlyPopAndRetReadMemory := by
  intro i s t m h hm
  have hout : AlikeButMem (.next t) (exec i (s.setMem m)) := h ▸ exec_alikeButMem i s m hm
  generalize he : exec i (s.setMem m) = o at hout
  cases hout
  exact ⟨_, he, rfl⟩

/-! ### A stored byte is fetched -/

/-- A registered opcode whose operand bytes all lie below N is fetched with them. -/
theorem fetch_ok {s : State} {mk : Byte → Byte → Instr} (hl : lookup (s.mem.read s.pc.toNat) = some mk)
    (hn : s.pc.toNat + operandCount (s.mem.read s.pc.toNat) < s.cfg.memSize) :
    fetch s = .ok (mk (s.mem.read (s.pc.toNat + 1)) (s.mem.read (s.pc.toNat + 2))) := by
  rcases fetch_cases s with ⟨h, _⟩ | ⟨_, h, _⟩ | ⟨_, k, _, _, _, hk, h, _⟩ | ⟨mk', hl', _, e⟩
  · omega
  · cases hl.symm.trans h
  · omega
  · cases hl.symm.trans hl'
    exact e

theorem step_of_lookup {s : State} {mk : Byte → Byte → Instr} (hs : s.Executes)
    (hl : lookup (s.mem.read s.pc.toNat) = some mk)
    (hn : s.pc.toNat + operandCount (s.mem.read s.pc.toNat) < s.cfg.memSize) :
    step s = exec (mk (s.mem.read (s.pc.toNat + 1)) (s.mem.read (s.pc.toNat + 2))) (edge s) := by
  obtain ⟨hwf, hrun, hrst⟩ := hs
  have hfetch := fetch_ok (s := s.beginEdge) hl hn
  rw [step_legal hwf, clockEdge_running hrst hrun, runInstr, hfetch]
  rfl

theorem step_hlt {s : State} (hs : s.Executes) (hn : s.pc.toNat < s.cfg.memSize)
    (hop : s.mem.read s.pc.toNat = 0x01#8) :
    step s = .next { edge s with status := .halted, pc := s.pc + 1#9 } := by
  have hcount : operandCount 0x01#8 = 0 := by decide
  rw [step_of_lookup hs (hop ▸ rfl : lookup _ = some fun _ _ => .hlt) (by rw [hop, hcount]; exact hn)]
  exact (execHlt_eq _).trans (by rw [BitVec.add_zero]; rfl)

theorem step_push {s : State} {a : Byte} (hs : s.Executes) (hn : s.pc.toNat + 1 < s.cfg.memSize)
    (hop : s.mem.read s.pc.toNat = 0x45#8) (ha : s.mem.read (s.pc.toNat + 1) = a) :
    step s = execPush a (edge s) := by
  have hcount : operandCount 0x45#8 = 1 := by decide
  rw [step_of_lookup hs (hop ▸ rfl : lookup _ = some fun a _ => .push a) (by rw [hop, hcount]; exact hn), ha]
  rfl

theorem execPush_ok {a : Byte} {s : State} (h : a.toNat < 8) (hsp : s.sp ≠ 0#8) (hn : s.pushAddr < s.cfg.memSize) :
    execPush a s = .next ((afterPush s fun s₁ => s₁.reg ⟨a.toNat, h⟩).setPc (s.pc + 1#9 + 1#9)) := by
  rcases execPush_cases a s with ⟨ha, _⟩ | ⟨_, h0, _⟩ | ⟨_, _, hout, _⟩ | ⟨_, _, _, e⟩
  · exact absurd h (Nat.not_lt.2 ha)
  · exact absurd h0 hsp
  · exact absurd hn (Nat.not_lt.2 hout)
  · exact e

/-- Settles O45: the store and the default advance meet in the cell at pc + 2, from which the next edge fetches. -/
theorem pushedByteIsFetchedNext : Obligations.PushedByteIsFetchedNext := by
  intro s a h hs hm hn hop ha hsp
  have ⟨hwf, hrun, _⟩ := hs
  have hsp0 : (edge s).sp ≠ 0#8 := fun e => by
    have : s.regs[7].toNat = 0 := congrArg BitVec.toNat e
    omega
  have haddr : s.pushAddr = s.pc.toNat + 2 := by
    have : s.pushAddr = s.regs[7].toNat - 1 := State.pushAddr_eq hsp0
    omega
  have hpc : (s.pc + 1#9 + 1#9).toNat = s.pc.toNat + 2 := by
    have := (config_wf_iff.1 hwf).2
    simp only [BitVec.toNat_add, BitVec.toNat_ofNat]
    omega
  have hread : (afterPush (edge s) fun s₁ => s₁.reg ⟨a.toNat, by omega⟩).mem.read (s.pc + 1#9 + 1#9).toNat =
      s.regs[a.toNat] := by
    rw [hpc, ← haddr]
    refine (afterPush_read (s := edge s) hm _).trans (State.reg_setReg_other (edge s) _ fun e => ?_)
    have : a.toNat = 7 := congrArg Fin.val e
    omega
  refine ⟨_, (step_push hs (by omega) hop ha).trans (execPush_ok (by omega) hsp0 (haddr ▸ hn)), hpc, hread, ?_⟩
  intro hbyte hrst'
  exact step_hlt ⟨hwf, hrun, hrst'⟩ (hpc ▸ hn) (hread.trans hbyte)

end Sys2Proof.Machine
end

-- Proofs of 30_encoding.md: what the decoder answers, and the fault of an unlisted opcode byte.
section

namespace Sys2Proof

/-! ### The decoder -/

/-- Everything the decoder can answer on some bytes: one of its three errors, or an instruction whose encoding they begin
with. -/
inductive DecodesTo : List Byte → Except DecodeError (Instr × List Byte) → Prop where
  | noOpcode : DecodesTo [] (.error .noOpcode)
  | unknownOpcode {op : Byte} (rest : List Byte) (hop : op ∉ opcodeBytes) :
      DecodesTo (op :: rest) (.error (.unknownOpcode op))
  | truncated {op : Byte} {rest : List Byte} (hop : op ∈ opcodeBytes) (hlen : rest.length < operandCount op) :
      DecodesTo (op :: rest) (.error (.truncated op))
  | instr (i : Instr) (rest : List Byte) : DecodesTo (encode i ++ rest) (.ok (i, rest))

theorem lookup_operandCount_le {op : Byte} {mk : Byte → Byte → Instr} (h : lookup op = some mk) :
    operandCount op ≤ 2 := by
  have := lookup_operandCount h
  omega

theorem decodesTo_decode (bytes : List Byte) : DecodesTo bytes (decode bytes) := by
  cases bytes with
  | nil => exact .noOpcode
  | cons op rest =>
    cases hl : lookup op with
    | none => exact decode_unknown hl rest ▸ .unknownOpcode rest (lookup_eq_none.1 hl)
    | some mk =>
      rw [decode_known hl]
      rcases decodeOperands_cases op mk (lookup_operandCount_le hl) rest with ⟨hlen, e⟩ | ⟨_, a, b, e, htake⟩ <;> rw [e]
      · exact .truncated (lookup_mem hl) hlen
      · have hbytes : encode (mk a b) ++ rest.drop (operandCount op) = op :: rest := by
          rw [encode, lookup_opcode hl, lookup_operandBytes hl, htake, List.cons_append, List.take_append_drop]
        exact hbytes ▸ .instr (mk a b) _

/-- Operand bytes of the right number are all taken, whatever follows them. -/
theorem decodeOperands_append (op : Byte) (mk : Byte → Byte → Instr) {operands : List Byte} (h : operands.length ≤ 2)
    (rest : List Byte) : decodeOperands op mk operands.length (operands ++ rest) =
      .ok (mk (operands.getD 0 0) (operands.getD 1 0), rest) := by
  match operands, h with
  | [], _ => rfl
  | [_], _ => rfl
  | [_, _], _ => rfl

theorem operandBytes_length (i : Instr) : i.operandBytes.length = operandCount i.opcode := by
  obtain ⟨mk, hl, hbuilds⟩ := lookup_of_instr i
  have hbytes := lookup_operandBytes hl (i.operandBytes.getD 0 0) (i.operandBytes.getD 1 0)
  rw [hbuilds] at hbytes
  exact (congrArg List.length hbytes).trans (List.length_take_of_le (lookup_operandCount_le hl))

theorem decode_encode_append (i : Instr) (rest : List Byte) : decode (encode i ++ rest) = .ok (i, rest) := by
  obtain ⟨mk, hl, hbuilds⟩ := lookup_of_instr i
  have hcount := operandBytes_length i
  calc decode (encode i ++ rest)
      = decodeOperands i.opcode mk i.operandBytes.length (i.operandBytes ++ rest) := hcount ▸ decode_known hl _
    _ = .ok (i, rest) := by rw [decodeOperands_append i.opcode mk (hcount ▸ lookup_operandCount_le hl), hbuilds]

theorem decode_truncated {op : Byte} {rest : List Byte} (hop : op ∈ opcodeBytes) (hlen : rest.length < operandCount op) :
    decode (op :: rest) = .error (.truncated op) := by
  obtain ⟨mk, hl⟩ := Option.ne_none_iff_exists'.1 fun h => lookup_eq_none.1 h hop
  rcases decodeOperands_cases op mk (lookup_operandCount_le hl) rest with ⟨_, e⟩ | ⟨hge, _⟩
  · exact (decode_known hl rest).trans e
  · exact absurd hlen (Nat.not_lt.2 hge)

theorem decode_eq_iff {bytes : List Byte} {r : Except DecodeError (Instr × List Byte)} :
    decode bytes = r ↔ DecodesTo bytes r := by
  constructor
  · rintro rfl
    exact decodesTo_decode bytes
  · intro h
    cases h with
    | noOpcode => rfl
    | unknownOpcode rest hop => exact decode_unknown (lookup_eq_none.2 hop) rest
    | truncated hop hlen => exact decode_truncated hop hlen
    | instr i rest => exact decode_encode_append i rest

/-- Settles O1: an instruction is the decoder's answer on its encoding and on nothing else. -/
theorem decodeTakesExactlyTheEncodings : Obligations.DecodeTakesExactlyTheEncodings := by
  intro bytes rest i
  rw [decode_eq_iff]
  constructor
  · rintro ⟨⟩
    rfl
  · rintro rfl
    exact .instr i rest

/-- Settles O2: each error is one of the decoder's four kinds of answer. -/
theorem decodeRejectsByName : Obligations.DecodeRejectsByName := by
  intro bytes op
  simp only [decode_eq_iff]
  refine ⟨⟨?_, ?_⟩, ⟨?_, ?_⟩, ⟨?_, ?_⟩⟩
  · rintro ⟨⟩
    rfl
  · rintro rfl
    exact .noOpcode
  · rintro (_ | ⟨rest, hop⟩)
    exact ⟨rest, rfl, hop⟩
  · rintro ⟨rest, rfl, hop⟩
    exact .unknownOpcode rest hop
  · rintro (_ | _ | ⟨hop, hlen⟩)
    exact ⟨_, rfl, hop, hlen⟩
  · rintro ⟨rest, rfl, hop, hlen⟩
    exact .truncated hop hlen

/-- Settles O3: each word is, bit by bit, the encoding of its instruction. -/
theorem writtenWordsDecode : Obligations.WrittenWordsDecode :=
  ⟨decode_encode_append .hlt [], decode_encode_append (.ldi 0 10) [], decode_encode_append (.prn 0) [],
    decode_encode_append (.cmp 1 3) [], decode_encode_append (.call 1) [], decode_encode_append (.jne 4) []⟩

/-! ### The bytes outside the opcode map -/

/-- A byte that would count three operands is in no row of the opcode map (30_encoding.md R62). -/
theorem not_mem_opcodeBytes_of_count_three (op : Byte) (h : op.extractLsb' 6 2 = 3#2) : op ∉ opcodeBytes := by
  have hcounts : ∀ op ∈ opcodeBytes, op.extractLsb' 6 2 ≠ 3#2 := by decide
  exact fun hop => hcounts op hop h

end Sys2Proof

namespace Sys2Proof.Machine

open Sys2Proof.Claims

/-- An edge that executes takes the fault of its fetch (40_engine.md R76; 60_exceptions.md R105). -/
theorem step_of_fetch_error {s : State} {op : Byte} {e : Raise} (hs : s.Executes)
    (hf : fetch s.beginEdge = .error (op, e)) : step s = .next (faulted (edge s) e.cause.code op e.addr) := by
  obtain ⟨hwf, hrun, hrst⟩ := hs
  rw [step_legal hwf, clockEdge_running hrst hrun, runInstr, hf]
  rfl

/-- Settles O6: the facts about the 13 bytes are read off the list; a byte outside it has no handler, so its fetch is the
fault. -/
theorem unlistedOpcodeFaults : Obligations.UnlistedOpcodeFaults := by
  refine ⟨⟨by decide, rfl, by decide, not_mem_opcodeBytes_of_count_three⟩, fun s hs hn hop => ?_⟩
  have hfetch := fetch_unknown (s := s.beginEdge) hn (lookup_eq_none.2 hop)
  exact step_of_fetch_error hs hfetch

end Sys2Proof.Machine
end

-- Proofs of 40_engine.md: the fetch, the register check, the default advance and the edge in Idle; and PRN of
-- 41_system_io.md.
section

namespace Sys2Proof.Machine

open Sys2Proof.Claims

/-! ### The register check -/

/-- A handler that, before anything else, checks the operands listed as register indices, in order (40_engine.md R71). -/
inductive ChecksFirst : List Byte → Except Raise State → Prop where
  | done (x : Except Raise State) : ChecksFirst [] x
  | check (a : Byte) {operands : List Byte} {k : Fin 8 → Except Raise State} (h : ∀ ra, ChecksFirst operands (k ra)) :
      ChecksFirst (a :: operands) (regIndex a >>= k)

theorem ChecksFirst.raises {operands : List Byte} {x : Except Raise State} {r : Byte} (h : ChecksFirst operands x)
    (hr : operands.find? (fun v => decide (8 ≤ v.toNat)) = some r) : x = .error ⟨.outOfRangeRegister, zext9 r⟩ := by
  induction h with
  | done => cases hr
  | check a _ ih =>
    rcases regIndex_cases a with ⟨ha, e⟩ | ⟨ha, e⟩ <;> rw [e]
    · rw [List.find?_cons_of_neg (by simpa using ha)] at hr
      exact ih _ hr
    · rw [List.find?_cons_of_pos (by simpa using ha)] at hr
      cases hr
      rfl

/-- Every meaning is the frame of its opcode around a handler that checks its register operands first. -/
theorem exec_checksFirst (i : Instr) (s : State) :
    ∃ x, exec i s = complete i.opcode s x ∧ ChecksFirst i.registerOperands x := by
  cases i with
  | hlt => exact ⟨.ok { s with status := .halted }, rfl, .done _⟩
  | ret => exact ⟨_, rfl, .done _⟩
  | ldi a _ | prn a | push a | pop a | call a | jeq a | jne a | jmp a => exact ⟨_, rfl, .check a fun _ => .done _⟩
  | mul a b | add a b | cmp a b => exact ⟨_, rfl, .check a fun _ => .check b fun _ => .done _⟩

/-- Settles O7: the handler's first check that fails is its result, and the frame takes that fault. -/
theorem registerOperandsAreChecked : Obligations.RegisterOperandsAreChecked := by
  intro i s r hr
  obtain ⟨x, hexec, hchecks⟩ := exec_checksFirst i s
  rw [hexec, hchecks.raises hr]
  rfl

/-! ### The default advance -/

/-- `op[7:6]` as the model shifts it out and as the bit field it is (30_encoding.md R56). -/
theorem operandCount_eq (op : Byte) : operandCount op = (op.extractLsb' 6 2).toNat := by
  have := op.isLt
  simp only [operandCount, BitVec.toNat_ushiftRight, BitVec.extractLsb'_toNat]
  omega

/-- An instruction whose opcode has the sets-PC bit clear completes at its default advance. -/
theorem Completes.pc_eq {i : Instr} {s t : State} (c : Completes i s t) (h : setsPc i.opcode = false) :
    t.pc = nextPc i s.pc := by
  cases i with
  | call _ | ret | jeq _ | jne _ | jmp _ => simp [setsPc, Instr.opcode] at h
  | hlt =>
    obtain rfl := c
    rfl
  | ldi _ _ | prn _ =>
    obtain ⟨_, rfl⟩ := c
    rfl
  | mul _ _ | add _ _ | cmp _ _ =>
    obtain ⟨_, _, rfl⟩ := c
    rfl
  | push _ | pop _ =>
    obtain ⟨_, _, _, rfl⟩ := c
    rfl

/-- Settles O8: the bytes the default advance skips are as many as `op[7:6]` counts. -/
theorem defaultAdvanceComesFromOpcodeBits : Obligations.DefaultAdvanceComesFromOpcodeBits := by
  intro i s t _ h ht hbit
  rw [(exec_completes h ht).pc_eq hbit, nextPc, operandBytes_length, operandCount_eq]

/-! ### The fetch -/

/-- An operand byte outside memory faults at the fetch, whatever the instruction (40_engine.md R70). -/
theorem operandFetchFaults_of_instr (i : Instr) : operandFetchFaults i.opcode i.operandBytes.length := by
  intro s k hs hpc hop hk hcount hn
  obtain ⟨mk, hl, -⟩ := lookup_of_instr i
  rw [operandBytes_length] at hcount
  have hfetch : fetch s.beginEdge = .error (i.opcode, ⟨.outOfRangeMemory, BitVec.ofNat 9 (s.pc.toNat + k)⟩) := by
    rw [← hop] at hl hcount ⊢
    rcases fetch_cases s.beginEdge with ⟨h, _⟩ | ⟨_, h, _⟩ | ⟨_, k', _, _, _, _, h, e⟩ | ⟨_, _, h, _⟩
    · exact absurd hpc (Nat.not_lt.2 h)
    · cases hl.symm.trans h
    · obtain rfl : k' = k := Nat.add_left_cancel (h.trans hn)
      exact e
    · exact absurd (hn ▸ h) (Nat.not_lt.2 (Nat.add_le_add_left hcount _))
  exact step_of_fetch_error hs hfetch

/-- Settles O5: the fetch is the fault, and 9 bits hold pc. -/
theorem fetchOutsideMemoryFaults : Obligations.FetchOutsideMemoryFaults := by
  intro s hs hn
  have hstep := step_of_fetch_error hs (fetch_outside (s := s.beginEdge) hn)
  rwa [BitVec.ofNat_toNat, BitVec.setWidth_eq] at hstep

theorem cellsFrom_length (s : State) (addr : Nat) : (cellsFrom s addr).length = s.cfg.memSize - addr := by
  simp [cellsFrom]

theorem cellsFrom_cons {s : State} {addr : Nat} (h : addr < s.cfg.memSize) :
    cellsFrom s addr = s.mem.read addr :: cellsFrom s (addr + 1) := by
  have hsize : s.cfg.memSize - addr = (s.cfg.memSize - (addr + 1)) + 1 := by omega
  simp [cellsFrom, hsize, List.range_succ_eq_map, Nat.add_assoc, Nat.add_comm 1]

/-- The cells at pc begin with the encoding of the instruction that the engine builds from them. -/
theorem cellsFrom_eq_encode {s : State} {mk : Byte → Byte → Instr} (hl : lookup (s.mem.read s.pc.toNat) = some mk)
    (hn : s.pc.toNat + operandCount (s.mem.read s.pc.toNat) < s.cfg.memSize) :
    ∃ rest, cellsFrom s s.pc.toNat =
      encode (mk (s.mem.read (s.pc.toNat + 1)) (s.mem.read (s.pc.toNat + 2))) ++ rest := by
  rw [encode, lookup_opcode hl, lookup_operandBytes hl, cellsFrom_cons (by omega)]
  rcases lookup_operandCount hl with hc | hc | hc <;> rw [hc] at hn ⊢
  · exact ⟨_, rfl⟩
  · rw [cellsFrom_cons (by omega)]
    exact ⟨_, rfl⟩
  · rw [cellsFrom_cons (by omega), cellsFrom_cons (by omega)]
    exact ⟨_, rfl⟩

/-- The engine fetches what the decoder reads from the cells at pc (40_engine.md R68 to R70). -/
theorem fetch_of_decode {s : State} {i : Instr} {rest : List Byte}
    (h : decode (cellsFrom s s.pc.toNat) = .ok (i, rest)) : fetch s = .ok i := by
  have hcells := (decodeTakesExactlyTheEncodings _ _ _).1 h
  have hlen : s.cfg.memSize - s.pc.toNat = operandCount i.opcode + 1 + rest.length := by
    rw [← cellsFrom_length, hcells, List.length_append, encode, List.length_cons, operandBytes_length]
  have hop : s.mem.read s.pc.toNat = i.opcode := by
    rw [cellsFrom_cons (by omega)] at hcells
    exact List.head_eq_of_cons_eq hcells
  obtain ⟨mk, hl, -⟩ := lookup_of_instr i
  rw [← hop] at hl hlen
  have hn : s.pc.toNat + operandCount (s.mem.read s.pc.toNat) < s.cfg.memSize := by omega
  obtain ⟨rest', hbuilt⟩ := cellsFrom_eq_encode hl hn
  rw [hbuilt, decode_encode_append] at h
  cases h
  exact fetch_ok hl hn

/-- An edge that executes runs what it fetches (40_engine.md R72, R80). -/
theorem step_of_fetch_ok {s : State} {i : Instr} (hs : s.Executes) (hf : fetch s.beginEdge = .ok i) :
    step s = exec i (edge s) := by
  obtain ⟨hwf, hrun, hrst⟩ := hs
  rw [step_legal hwf, clockEdge_running hrst hrun, runInstr, hf]
  rfl

/-- Settles O4: the edge runs what the engine fetches, which is the decoded instruction. -/
theorem stepRunsTheDecodedInstruction : Obligations.StepRunsTheDecodedInstruction := by
  intro s i rest hs h
  exact step_of_fetch_ok hs (fetch_of_decode (s := s.beginEdge) h)

/-! ### The edge in Idle -/

/-- The ports' two requests in Idle, a load write below N and a start, each with its own condition (40_engine.md R80). -/
theorem idleEdge_eq (p : Pins) (s : State) :
    idleEdge p s = { s with
      mem := if p.ldWe = true ∧ p.ldAddr.toNat < s.cfg.memSize then s.mem.write p.ldAddr.toNat p.ldData else s.mem
      status := if p.start = true then .running else .idle } := by
  simp only [idleEdge, Bool.and_eq_true, decide_eq_true_eq]

/-- Settles O10: in Idle the step is `idleEdge`, whose two conditions are the statement's. -/
theorem idleEdgeLoadsAndStarts : Obligations.IdleEdgeLoadsAndStarts := by
  intro s ⟨hwf, hrst⟩ hidle
  rw [step_legal hwf, clockEdge_idle hrst hidle, idleEdge_eq]
  rfl

/-! ### PRN -/

theorem execPrn_ok {a : Byte} {s : State} (h : a.toNat < 8) :
    execPrn a s = .next ((s.emit (s.reg ⟨a.toNat, h⟩)).setPc (s.pc + 2#9)) := by
  rcases execPrn_cases a s with ⟨ha, _⟩ | ⟨_, e⟩
  · exact absurd h (Nat.not_lt.2 ha)
  · rw [e, pc_add_two]

/-- Settles O22: PRN of a register emits it; its faults are those of the register check and of the operand fetch. -/
theorem prnEmitsARegister : Obligations.PrnEmitsARegister := by
  refine ⟨fun _ => rfl, fun s a h => execPrn_ok h, fun s a h => ?_, operandFetchFaults_of_instr (.prn 0)⟩
  exact registerOperandsAreChecked (.prn a) s a (List.find?_cons_of_pos (by simpa using h))

end Sys2Proof.Machine
end

-- Proofs of 41_system_io.md: HLT.
section

namespace Sys2Proof.Machine

open Sys2Proof.Claims

/-- HLT has no operands, so the default advance is over its opcode byte alone (40_engine.md R73). -/
theorem exec_hlt (s : State) : exec .hlt s = .next { s with status := .halted, pc := s.pc + 1#9 } :=
  (execHlt_eq s).trans (by rw [BitVec.add_zero]; rfl)

theorem step_halted {s : State} (hs : s.NoReset) (hhalted : s.status = .halted) : step s = .next (edge s) := by
  obtain ⟨hwf, hrst⟩ := hs
  exact (step_legal hwf).trans (clockEdge_halted hrst hhalted)

/-- Settles O21: what HLT does, the step that fetches it, and the edge in Halted. -/
theorem hltHaltsForGood : Obligations.HltHaltsForGood :=
  ⟨rfl, exec_hlt, fun _ hs hn hop => step_hlt hs hn hop, fun _ hs hhalted => step_halted hs hhalted⟩

end Sys2Proof.Machine
end

-- Proofs of 42_data_alu.md: LDI, MUL, ADD and CMP; and the branch after a comparison.
section

namespace Sys2Proof.Machine

open Sys2Proof.Claims

/-! ### Two register operands -/

/-- The faults of an instruction whose two operands are registers, a checked before b (40_engine.md R71). -/
theorem exec_twoRegisterFaults {i : Instr} {a b : Byte} (hi : i.registerOperands = [a, b]) (s : State) :
    (8 ≤ a.toNat → exec i s = .next (faulted s 2#3 i.opcode (a.setWidth 9))) ∧
    (a.toNat < 8 → 8 ≤ b.toNat → exec i s = .next (faulted s 2#3 i.opcode (b.setWidth 9))) := by
  constructor
  · intro ha
    exact registerOperandsAreChecked i s a (hi ▸ List.find?_cons_of_pos (by simpa using ha))
  · intro ha hb
    have hsecond : [b].find? (fun v => decide (8 ≤ v.toNat)) = some b := List.find?_cons_of_pos (by simpa using hb)
    exact registerOperandsAreChecked i s b (hi ▸ (List.find?_cons_of_neg (by simpa using ha)).trans hsecond)

/-- Of the three things an instruction with two register operands can do, the two register faults are out when both
operands name registers. -/
theorem completes_of_registers {a b : Byte} {F G : Prop} {C : a.toNat < 8 → b.toNat < 8 → Prop}
    (hcases : (8 ≤ a.toNat ∧ F) ∨ (a.toNat < 8 ∧ 8 ≤ b.toNat ∧ G) ∨ ∃ (h : a.toNat < 8) (k : b.toNat < 8), C h k)
    (h : a.toNat < 8) (k : b.toNat < 8) : C h k := by
  rcases hcases with ⟨ha, _⟩ | ⟨_, hb, _⟩ | ⟨_, _, hc⟩
  · exact absurd h (Nat.not_lt.2 ha)
  · exact absurd k (Nat.not_lt.2 hb)
  · exact hc

/-- The default advance over three bytes (40_engine.md R73). -/
theorem pc_add_three (ia : PcWord) : ia + 3#9 = ia + 1#9 + 2#9 := (BitVec.add_assoc ia 1#9 2#9).symm

/-! ### The ALU -/

theorem aluMul_eq_mod (x y : Byte) : aluMul x y = BitVec.ofNat 8 (x.toNat * y.toNat % 256) :=
  BitVec.eq_of_toNat_eq (by simp [aluMul])

theorem aluAdd_eq_mod (x y : Byte) : aluAdd x y = BitVec.ofNat 8 ((x.toNat + y.toNat) % 256) :=
  BitVec.eq_of_toNat_eq (by simp [aluAdd])

/-- Two bytes are equal exactly when their unsigned values are. -/
theorem compareFlags_eq_toNat (x y : Byte) :
    compareFlags x y = if x.toNat = y.toNat then 0x01#8 else if x.toNat < y.toNat then 0x02#8 else 0x04#8 := by
  simp only [compareFlags, BitVec.toNat_inj]

/-- E after a comparison says whether the values were equal (42_data_alu.md R87). -/
theorem flagE_compareFlags (x y : Byte) : flagE (compareFlags x y) = decide (x = y) := by
  unfold compareFlags
  split_ifs with heq hlt
  · rw [decide_eq_true heq]; rfl
  · rw [decide_eq_false heq]; rfl
  · rw [decide_eq_false heq]; rfl

/-! ### LDI, MUL, ADD, CMP of registers -/

theorem execLdi_ok {a : Byte} {s : State} (b : Byte) (h : a.toNat < 8) :
    execLdi a b s = .next ((s.setReg ⟨a.toNat, h⟩ b).setPc (s.pc + 3#9)) := by
  rcases execLdi_cases a b s with ⟨ha, _⟩ | ⟨_, e⟩
  · exact absurd h (Nat.not_lt.2 ha)
  · rw [e, pc_add_three]

theorem execMul_ok {a b : Byte} {s : State} (h : a.toNat < 8) (k : b.toNat < 8) :
    execMul a b s =
      .next ((s.setReg ⟨a.toNat, h⟩ (aluMul (s.reg ⟨a.toNat, h⟩) (s.reg ⟨b.toNat, k⟩))).setPc (s.pc + 3#9)) :=
  pc_add_three s.pc ▸ completes_of_registers (execMul_cases a b s) h k

theorem execAdd_ok {a b : Byte} {s : State} (h : a.toNat < 8) (k : b.toNat < 8) :
    execAdd a b s =
      .next ((s.setReg ⟨a.toNat, h⟩ (aluAdd (s.reg ⟨a.toNat, h⟩) (s.reg ⟨b.toNat, k⟩))).setPc (s.pc + 3#9)) :=
  pc_add_three s.pc ▸ completes_of_registers (execAdd_cases a b s) h k

theorem execCmp_ok {a b : Byte} {s : State} (h : a.toNat < 8) (k : b.toNat < 8) :
    execCmp a b s =
      .next (State.setPc { s with fl := compareFlags (s.reg ⟨a.toNat, h⟩) (s.reg ⟨b.toNat, k⟩) } (s.pc + 3#9)) :=
  pc_add_three s.pc ▸ completes_of_registers (execCmp_cases a b s) h k

/-- Settles O23: LDI of a register writes the immediate; its faults are those of the register check and of the operand
fetch. -/
theorem ldiLoadsTheImmediate : Obligations.LdiLoadsTheImmediate := by
  refine ⟨fun _ _ => rfl, fun s a b h => execLdi_ok b h, fun s a b h => ?_, operandFetchFaults_of_instr (.ldi 0 0)⟩
  exact registerOperandsAreChecked (.ldi a b) s a (List.find?_cons_of_pos (by simpa using h))

/-- Settles O24: MUL of two registers writes the ALU's product, which is the one modulo 256. -/
theorem mulMultipliesModulo256 : Obligations.MulMultipliesModulo256 := by
  refine ⟨fun _ _ => rfl, fun s a b h k => ?_, fun s a b => exec_twoRegisterFaults (i := .mul a b) rfl s,
    operandFetchFaults_of_instr (.mul 0 0)⟩
  exact (execMul_ok h k).trans (by rw [aluMul_eq_mod]; rfl)

/-- Settles O25: ADD of two registers writes the ALU's sum, which is the one modulo 256. -/
theorem addAddsModulo256 : Obligations.AddAddsModulo256 := by
  refine ⟨fun _ _ => rfl, fun s a b h k => ?_, fun s a b => exec_twoRegisterFaults (i := .add a b) rfl s,
    operandFetchFaults_of_instr (.add 0 0)⟩
  exact (execAdd_ok h k).trans (by rw [aluAdd_eq_mod]; rfl)

/-- Settles O26: CMP of two registers writes `compareFlags` of them, the unsigned comparison. -/
theorem cmpSetsExactlyOneFlag : Obligations.CmpSetsExactlyOneFlag := by
  refine ⟨fun _ _ => rfl, fun s a b h k => ?_, fun s a b => exec_twoRegisterFaults (i := .cmp a b) rfl s,
    operandFetchFaults_of_instr (.cmp 0 0)⟩
  exact (execCmp_ok h k).trans (by rw [compareFlags_eq_toNat]; rfl)

/-! ### A branch after a comparison -/

theorem execJeq_ok {a : Byte} {s : State} (h : a.toNat < 8) :
    execJeq a s = .next (s.setPc (if flagE s.fl then zext9 (s.reg ⟨a.toNat, h⟩) else s.pc + 2#9)) := by
  rcases execJeq_cases a s with ⟨ha, _⟩ | ⟨_, e⟩
  · exact absurd h (Nat.not_lt.2 ha)
  · exact e

theorem execJne_ok {a : Byte} {s : State} (h : a.toNat < 8) :
    execJne a s = .next (s.setPc (if flagE s.fl then s.pc + 2#9 else zext9 (s.reg ⟨a.toNat, h⟩))) := by
  rcases execJne_cases a s with ⟨ha, _⟩ | ⟨_, e⟩
  · exact absurd h (Nat.not_lt.2 ha)
  · exact e

/-- JEQ with the flags of a comparison branches exactly when the compared values are equal (44_branch.md R95). -/
theorem execJeq_of_compared {a x y : Byte} {s : State} (h : a.toNat < 8) (hfl : s.fl = compareFlags x y) :
    execJeq a s = .next (s.setPc (if x = y then zext9 (s.reg ⟨a.toNat, h⟩) else s.pc + 2#9)) := by
  rw [execJeq_ok h, hfl, flagE_compareFlags]
  simp only [decide_eq_true_eq]

/-- JNE with the flags of a comparison branches exactly when the compared values differ (44_branch.md R96). -/
theorem execJne_of_compared {a x y : Byte} {s : State} (h : a.toNat < 8) (hfl : s.fl = compareFlags x y) :
    execJne a s = .next (s.setPc (if x = y then s.pc + 2#9 else zext9 (s.reg ⟨a.toNat, h⟩))) := by
  rw [execJne_ok h, hfl, flagE_compareFlags]
  simp only [decide_eq_true_eq]

/-- Settles O43: CMP leaves the flags of its comparison and no register changed, and each branch decides on them. -/
theorem compareThenBranchAgrees : Obligations.CompareThenBranchAgrees := by
  intro s a b c h k l
  exact ⟨_, execCmp_ok h k, execJeq_of_compared l rfl, execJne_of_compared l rfl⟩

end Sys2Proof.Machine
end

-- Proofs of 43_stack_call.md: PUSH, POP, CALL and RET; and what a pop after a push restores.
section

namespace Sys2Proof.Machine

open Sys2Proof.Claims

/-! ### The handlers as a push or a pop, and what follows it -/

/-- What `i` does in `s`, its register operand being in range, begins with a push (43_stack_call.md R89, R91). -/
def PushesFirst (i : Instr) (s : State) : Prop := ∃ v k, exec i s = complete i.opcode s (push s v >>= k)

/-- What `i` does in `s`, its register operand, if any, being in range, begins with a pop (43_stack_call.md R90, R92). -/
def PopsFirst (i : Instr) (s : State) : Prop := ∃ k, exec i s = complete i.opcode s (popRead s >>= k)

theorem execPush_eq {a : Byte} {s : State} (h : a.toNat < 8) :
    execPush a s = complete 0x45#8 s (push s fun s₁ => s₁.reg ⟨a.toNat, h⟩) := by
  rw [execPush, regIndex_ok h]
  rfl

theorem execPop_eq {a : Byte} {s : State} (h : a.toNat < 8) :
    execPop a s = complete 0x46#8 s (popRead s >>= fun v => pure (popIncrement (s.setReg ⟨a.toNat, h⟩ v))) := by
  rw [execPop, regIndex_ok h]
  rfl

theorem execCall_eq {a : Byte} {s : State} (h : a.toNat < 8) :
    execCall a s = complete 0x50#8 s
      (push s (fun _ => returnByte s.pc) >>= fun s₁ => pure (s₁.setPc (regTarget s₁ ⟨a.toNat, h⟩))) := by
  rw [execCall, regIndex_ok h]
  rfl

theorem pushesFirst_push {a : Byte} (s : State) (h : a.toNat < 8) : PushesFirst (.push a) s :=
  ⟨_, pure, (execPush_eq h).trans (by rw [bind_pure]; rfl)⟩

theorem pushesFirst_call {a : Byte} (s : State) (h : a.toNat < 8) : PushesFirst (.call a) s :=
  ⟨_, _, execCall_eq h⟩

theorem popsFirst_pop {a : Byte} (s : State) (h : a.toNat < 8) : PopsFirst (.pop a) s := ⟨_, execPop_eq h⟩

theorem popsFirst_ret (s : State) : PopsFirst .ret s := ⟨_, rfl⟩

/-! ### The faults of a push and of a pop -/

/-- The fault of an instruction whose first operand is a register (40_engine.md R71). -/
theorem exec_firstRegisterFaults {i : Instr} {a : Byte} {operands : List Byte} (hi : i.registerOperands = a :: operands)
    (s : State) (ha : 8 ≤ a.toNat) : exec i s = .next (faulted s 2#3 i.opcode (a.setWidth 9)) :=
  registerOperandsAreChecked i s a (hi ▸ List.find?_cons_of_pos (by simpa using ha))

/-- A push overflows at x[7] = 0 before its cell is checked against N (43_stack_call.md R89, R91). -/
theorem PushesFirst.faults {i : Instr} {s : State} (h : PushesFirst i s) :
    (s.regs[7] = 0x00#8 → exec i s = .next (faulted s 5#3 i.opcode 0#9)) ∧
    (s.regs[7] ≠ 0x00#8 → s.cfg.memSize ≤ s.regs[7].toNat - 1 →
      exec i s = .next (faulted s 1#3 i.opcode (BitVec.ofNat 9 (s.regs[7].toNat - 1)))) := by
  obtain ⟨v, k, hexec⟩ := h
  constructor
  · intro hsp
    have hsp : s.sp = 0#8 := hsp
    rw [hexec, push_overflow v hsp, hsp]
    rfl
  · intro hsp hn
    have haddr : s.pushAddr = s.regs[7].toNat - 1 := State.pushAddr_eq hsp
    rw [hexec, push_outside v hsp (haddr ▸ hn), haddr]
    rfl

/-- A pop underflows at x[7] = SP_INIT before its cell is checked against N (43_stack_call.md R90, R92). -/
theorem PopsFirst.faults {i : Instr} {s : State} (h : PopsFirst i s) :
    (s.regs[7] = s.cfg.spInit → exec i s = .next (faulted s 4#3 i.opcode (s.regs[7].setWidth 9))) ∧
    (s.regs[7] ≠ s.cfg.spInit → s.cfg.memSize ≤ s.regs[7].toNat →
      exec i s = .next (faulted s 1#3 i.opcode (s.regs[7].setWidth 9))) := by
  obtain ⟨k, hexec⟩ := h
  constructor
  · intro hsp
    rw [hexec, popRead_underflow hsp]
    rfl
  · intro hsp hn
    rw [hexec, popRead_outside hsp hn, BitVec.ofNat_toNat]
    rfl

/-! ### PUSH, POP, CALL and RET that complete -/

theorem execPop_ok {a : Byte} {s : State} (h : a.toNat < 8) (hsp : s.sp ≠ s.cfg.spInit)
    (hn : s.sp.toNat < s.cfg.memSize) :
    execPop a s = .next ((popIncrement (s.setReg ⟨a.toNat, h⟩ (s.mem.read s.sp.toNat))).setPc (s.pc + 2#9)) := by
  rw [execPop_eq h, popRead_ok hsp hn, pc_add_two]
  rfl

theorem execCall_ok {a : Byte} {s : State} (h : a.toNat < 8) (hsp : s.sp ≠ 0#8) (hn : s.pushAddr < s.cfg.memSize) :
    execCall a s = .next ((afterPush s fun _ => returnByte s.pc).setPc
      (zext9 ((s.setReg spIndex (s.sp - 1#8)).reg ⟨a.toNat, h⟩))) := by
  rw [execCall_eq h, push_ok _ hsp hn]
  rfl

theorem execRet_ok {s : State} (hsp : s.sp ≠ s.cfg.spInit) (hn : s.sp.toNat < s.cfg.memSize) :
    execRet s = .next (popIncrement (s.setPc (zext9 (s.mem.read s.sp.toNat)))) := by
  rw [execRet, popRead_ok hsp hn]
  rfl

/-- The stack pointer wraps from 0xFF to 0x00 (43_stack_call.md R88). -/
theorem popIncrement_eq (s : State) :
    popIncrement s = s.setReg spIndex (BitVec.ofNat 8 ((s.sp.toNat + 1) % 256)) :=
  congrArg (s.setReg spIndex) (BitVec.eq_of_toNat_eq (by simp))

/-- Settles O27: PUSH of a register stores at x[7] - 1; its faults are those of the register check, of the push and of
the operand fetch. -/
theorem pushStoresBelowTheStackPointer : Obligations.PushStoresBelowTheStackPointer := by
  refine ⟨fun _ => rfl, fun s a h hsp hn => ?_, fun s a => ⟨exec_firstRegisterFaults (i := .push a) rfl s, ?_⟩,
    operandFetchFaults_of_instr (.push 0)⟩
  · have haddr : s.pushAddr = s.regs[7].toNat - 1 := State.pushAddr_eq hsp
    refine (execPush_ok h hsp (haddr ▸ hn)).trans ?_
    rw [afterPush, haddr, ← pc_add_two]
    rfl
  · exact forall_and.1 fun h => (pushesFirst_push s h).faults

/-- Settles O28: POP of a register reads the cell at x[7]; its faults are those of the register check, of the pop and of
the operand fetch. -/
theorem popLoadsFromTheStackPointer : Obligations.PopLoadsFromTheStackPointer := by
  refine ⟨fun _ => rfl, fun s a h hsp hn => ?_, fun s a => ⟨exec_firstRegisterFaults (i := .pop a) rfl s, ?_⟩,
    operandFetchFaults_of_instr (.pop 0)⟩
  · exact (execPop_ok h hsp hn).trans (by rw [popIncrement_eq]; rfl)
  · exact forall_and.1 fun h => (popsFirst_pop s h).faults

/-- Settles O29: CALL of a register stores the return byte at x[7] - 1 and reads its target after that; its faults are
those of the register check, of the push and of the operand fetch. -/
theorem callPushesTheReturnAddress : Obligations.CallPushesTheReturnAddress := by
  refine ⟨fun _ => rfl, fun s a h hsp hn => ?_, fun s a => ⟨exec_firstRegisterFaults (i := .call a) rfl s, ?_⟩,
    operandFetchFaults_of_instr (.call 0)⟩
  · have haddr : s.pushAddr = s.regs[7].toNat - 1 := State.pushAddr_eq hsp
    refine (execCall_ok h hsp (haddr ▸ hn)).trans ?_
    rw [afterPush, haddr, returnByte_eq]
    rfl
  · exact forall_and.1 fun h => (pushesFirst_call s h).faults

/-- Settles O30: RET reads its target from the cell at x[7]; its faults are those of the pop. -/
theorem retPopsTheProgramCounter : Obligations.RetPopsTheProgramCounter := by
  refine ⟨rfl, fun s hsp hn => ?_, fun s => (popsFirst_ret s).faults⟩
  exact (execRet_ok hsp hn).trans (by rw [popIncrement_eq]; rfl)

/-! ### A pop after a push -/

theorem afterPush_sp (s : State) (v : State → Byte) : (afterPush s v).sp = s.sp - 1#8 := State.sp_setReg_sp s _

theorem afterPush_read_sp {s : State} (hm : s.mem.wf = true) (v : State → Byte) :
    (afterPush s v).mem.read (afterPush s v).sp.toNat = v (s.setReg spIndex (s.sp - 1#8)) := by
  rw [afterPush_sp]
  exact afterPush_read hm v

theorem State.setReg_reg_self (s : State) (i : Fin 8) : s.setReg i (s.reg i) = s := by
  simp [State.setReg, State.reg]

/-- The increment of a pop undoes the decrement of a push. -/
theorem popIncrement_afterPush_regs (s : State) (v : State → Byte) : (popIncrement (afterPush s v)).regs = s.regs := by
  have hsp : (afterPush s v).sp + 1#8 = s.sp := by rw [afterPush_sp, BitVec.sub_add_cancel]
  rw [popIncrement_regs, hsp]
  exact (Vector.set_set _ _).trans (Vector.set_getElem_self _)

/-- Where a push leads, a pop does not fault, unless the pushed stack pointer is SP_INIT. -/
theorem afterPush_pops {s : State} (v : State → Byte) (hinit : s.sp - 1#8 ≠ s.cfg.spInit)
    (hn : s.pushAddr < s.cfg.memSize) :
    (afterPush s v).sp ≠ s.cfg.spInit ∧ (afterPush s v).sp.toNat < s.cfg.memSize := by
  rw [afterPush_sp]
  exact ⟨hinit, hn⟩

/-- The cell a push of x[i] wrote holds what x[i] still holds, so reading it into x[i] changes nothing. -/
theorem setReg_read_of_pushed {s t : State} {i : Fin 8} (hm : s.mem.wf = true)
    (ht : t = afterPush s fun s₁ => s₁.reg i) : t.setReg i (t.mem.read t.sp.toNat) = t := by
  subst ht
  rw [afterPush_read_sp hm]
  exact State.setReg_reg_self _ i

/-- Settles O41: POP writes back to its register the byte it still holds, and its increment undoes the decrement. -/
theorem pushThenPopRestoresRegisters : Obligations.PushThenPopRestoresRegisters := by
  intro s a hm h hsp hn hinit
  have hn : s.pushAddr < s.cfg.memSize := State.pushAddr_eq hsp ▸ hn
  obtain ⟨hinit', hn'⟩ := afterPush_pops (fun s₁ => s₁.reg ⟨a.toNat, h⟩) hinit hn
  refine ⟨_, _, execPush_ok h hsp hn, execPop_ok h hinit' hn', ?_, ?_⟩
  · have hregs := popIncrement_afterPush_regs s fun s₁ => s₁.reg ⟨a.toNat, h⟩
    rwa [← setReg_read_of_pushed hm rfl] at hregs
  · exact (congrArg (· + 2#9) (pc_add_two s.pc).symm).trans (BitVec.add_assoc s.pc 2#9 2#9)

/-- Settles O42: RET pops the return byte CALL pushed, and its increment undoes the decrement. -/
theorem callThenRetResumesAfterTheCall : Obligations.CallThenRetResumesAfterTheCall := by
  intro s a hm h hsp hn hinit
  have hn : s.pushAddr < s.cfg.memSize := State.pushAddr_eq hsp ▸ hn
  obtain ⟨hinit', hn'⟩ := afterPush_pops (fun _ => returnByte s.pc) hinit hn
  refine ⟨_, _, execCall_ok h hsp hn, execRet_ok hinit' hn',
    popIncrement_afterPush_regs s fun _ => returnByte s.pc, ?_⟩
  have hpc := congrArg zext9 (afterPush_read_sp hm fun _ => returnByte s.pc)
  exact (congrArg BitVec.toNat hpc).trans (zext9_toNat (returnByte s.pc))

end Sys2Proof.Machine
end

-- Proofs of 44_branch.md: JMP, JEQ and JNE.
section

namespace Sys2Proof.Machine

open Sys2Proof.Claims

theorem execJmp_ok {a : Byte} {s : State} (h : a.toNat < 8) :
    execJmp a s = .next (s.setPc (zext9 (s.reg ⟨a.toNat, h⟩))) := by
  rcases execJmp_cases a s with ⟨ha, _⟩ | ⟨_, e⟩
  · exact absurd h (Nat.not_lt.2 ha)
  · exact e

/-- JNE with its branch on E clear written first (44_branch.md R96). -/
theorem execJne_ok_of_clear {a : Byte} {s : State} (h : a.toNat < 8) :
    execJne a s = .next (s.setPc (if flagE s.fl = false then zext9 (s.reg ⟨a.toNat, h⟩) else s.pc + 2#9)) := by
  rw [execJne_ok h]
  cases flagE s.fl <;> rfl

/-- Settles O31: JMP of a register sets pc to it; its faults are those of the register check and of the operand fetch. -/
theorem jmpGoesToTheRegister : Obligations.JmpGoesToTheRegister :=
  ⟨fun _ => rfl, fun _ _ h => execJmp_ok h, fun s a => exec_firstRegisterFaults (i := .jmp a) rfl s,
    operandFetchFaults_of_instr (.jmp 0)⟩

/-- Settles O32: JEQ of a register decides on E, which is bit 0 of FL; its faults are those of the register check and of
the operand fetch, neither of which reads FL. -/
theorem jeqBranchesOnEqual : Obligations.JeqBranchesOnEqual :=
  ⟨fun _ => rfl, fun _ _ h => execJeq_ok h, fun s a => exec_firstRegisterFaults (i := .jeq a) rfl s,
    operandFetchFaults_of_instr (.jeq 0)⟩

/-- Settles O33: JNE of a register decides on E, which is bit 0 of FL; its faults are those of the register check and of
the operand fetch, neither of which reads FL. -/
theorem jneBranchesOnNotEqual : Obligations.JneBranchesOnNotEqual :=
  ⟨fun _ => rfl, fun _ _ h => execJne_ok_of_clear h, fun s a => exec_firstRegisterFaults (i := .jne a) rfl s,
    operandFetchFaults_of_instr (.jne 0)⟩

end Sys2Proof.Machine
end

-- Proofs of 60_exceptions.md: fault entry, the two terminal statuses and the output ports.
section

namespace Sys2Proof.Machine

open Sys2Proof.Claims

/-! ### Fault entry -/

/-- A run of the engine from Running that ends in Faulted took one fault, of the fetch or of the instruction, and in both
cases with the opcode byte at pc. -/
theorem runInstr_faulted {s t : State} (hrun : s.status = .running) (h : runInstr s = .next t)
    (ht : t.status = .faulted) :
    ∃ e, t = takeFault (if s.cfg.memSize ≤ s.pc.toNat then 0x00#8 else s.mem.read s.pc.toNat) e s := by
  rcases runInstr_inv h with ⟨e, hfault, -⟩ | ⟨mk, hl, hn, hexec⟩
  · exact ⟨e, hfault⟩
  · rcases exec_effect hexec with ⟨e, -, hfault⟩ | e
    · have hinside : ¬ s.cfg.memSize ≤ s.pc.toNat := by omega
      rw [lookup_opcode hl] at hfault
      exact ⟨e, by rw [if_neg hinside, hfault]⟩
    · exact absurd ht (e.status_live hrun).2

theorem step_of_executes {s : State} (hs : s.Executes) : step s = runInstr (edge s) := by
  obtain ⟨hwf, hrun, hrst⟩ := hs
  exact (step_legal hwf).trans (clockEdge_running hrst hrun)

/-- Settles O16: the fault the engine took from the edge's state is `faulted`, and the status port shows its status. -/
theorem faultEntryIsPrecise : Obligations.FaultEntryIsPrecise := by
  intro s t hs h ht
  have ⟨_, hrun, _⟩ := hs
  rw [step_of_executes hs] at h
  obtain ⟨e, hfault⟩ := runInstr_faulted (s := edge s) hrun h ht
  exact ⟨⟨e.cause, e.addr, hfault⟩, congrArg Status.code ht⟩

/-! ### Halted and Faulted -/

theorem step_reset {s : State} (hwf : s.cfg.wf = true) (hrst : s.nextPins.rst = true) :
    step s = .next (applyReset s.beginEdge) :=
  (step_legal hwf).trans (clockEdge_reset hrst)

theorem step_faulted {s : State} (hs : s.NoReset) (hfaulted : s.status = .faulted) : step s = .next (edge s) := by
  obtain ⟨hwf, hrst⟩ := hs
  exact (step_legal hwf).trans (clockEdge_faulted hrst hfaulted)

/-- Settles O9: without a reset each of the two statuses only begins the edge; a reset leaves Idle from any status. -/
theorem haltedAndFaultedAreLeftOnlyByReset : Obligations.HaltedAndFaultedAreLeftOnlyByReset := by
  intro s hwf hs
  constructor
  · intro hrst
    rcases hs with hhalted | hfaulted
    · exact step_halted ⟨hwf, hrst⟩ hhalted
    · exact step_faulted ⟨hwf, hrst⟩ hfaulted
  · intro hrst
    exact ⟨_, step_reset hwf hrst, applyReset_status _⟩

/-! ### The output ports -/

theorem getLsbD_lane {w k n : Nat} (v : BitVec n) (i : Nat) :
    (lane w k v).getLsbD i = (decide (i < w) && !decide (i < k) && v.getLsbD (i - k)) := by
  have hsmall : i < w → i - k < w := fun h => by omega
  simp only [lane, BitVec.getLsbD_shiftLeft, BitVec.getLsbD_setWidth]
  by_cases hi : i < w <;> simp [hi, hsmall]

/-- A port's bits at a lane's own place are the lane's value. -/
theorem extractLsb'_lane_same {w k n : Nat} (v : BitVec n) (h : k + n ≤ w) : (lane w k v).extractLsb' k n = v := by
  ext i hi
  have hw : k + i < w := by omega
  rw [BitVec.getElem_extractLsb', getLsbD_lane, Nat.add_sub_cancel_left, BitVec.getLsbD_eq_getElem hi]
  simp [hw]

/-- A lane puts nothing into bits beside its own. -/
theorem extractLsb'_lane_other {w k n j m : Nat} (v : BitVec n) (h : j + m ≤ k ∨ k + n ≤ j) :
    (lane w k v).extractLsb' j m = 0#m := by
  ext i hi
  rw [BitVec.getElem_extractLsb', getLsbD_lane]
  rcases h with hbelow | habove
  · have : j + i < k := by omega
    simp [this]
  · rw [BitVec.getLsbD_of_ge v _ (by omega)]
    simp

theorem extractLsb'_traceRegs (s : State) (r : Fin 8) : s.traceRegs.extractLsb' (8 * r.val) 8 = s.reg r := by
  fin_cases r <;> simp [State.traceRegs, BitVec.extractLsb'_or, extractLsb'_lane_same, extractLsb'_lane_other]

theorem extractLsb'_traceBytes (s : State) (k : Fin 3) : s.traceBytes.extractLsb' (8 * k.val) 8 = s.traceByte k.val := by
  fin_cases k <;> simp [State.traceBytes, BitVec.extractLsb'_or, extractLsb'_lane_same, extractLsb'_lane_other]

theorem extractLsb'_traceValids (s : State) (k : Fin 3) :
    s.traceValids.extractLsb' k.val 1 = BitVec.ofBool (s.traceValid k.val) := by
  fin_cases k <;> simp [State.traceValids, BitVec.extractLsb'_or, extractLsb'_lane_same, extractLsb'_lane_other]

theorem getLsbD_traceValids (s : State) (k : Fin 3) : s.traceValids.getLsbD k.val = s.traceValid k.val := by
  have hbit := congrArg (BitVec.getLsbD · 0) (extractLsb'_traceValids s k)
  simpa using hbit

theorem traceByte_eq (s : State) (k : Nat) :
    s.traceByte k = if s.pc.toNat + k < s.cfg.memSize then s.mem.read (s.pc.toNat + k) else 0x00#8 := by
  simp only [State.traceByte, State.traceValid, decide_eq_true_eq]

/-- Settles O19: the trace registers, bytes and valid bits are read off their lanes; every other port is its field of the
state, or the code of its status. -/
theorem portsShowTheState : Obligations.PortsShowTheState := by
  intro s
  have htrace (k : Fin 3) := (extractLsb'_traceBytes s k).trans (traceByte_eq s k.val)
  exact ⟨rfl, rfl, extractLsb'_traceRegs s, fun k => ⟨htrace k, getLsbD_traceValids s k⟩, rfl, rfl, rfl, rfl, rfl,
    fun _ => rfl, congrArg Status.code, congrArg Status.code, congrArg Status.code, congrArg Status.code⟩

end Sys2Proof.Machine
end

-- Proofs of 70_reset_and_hazards.md: reset, boot and the launch state; and register 7 as an operand of the stack.
section

namespace Sys2Proof.Machine

open Sys2Proof.Claims

/-! ### The launch state -/

/-- Settles O15: the launch state holds only bytes stored below N, and its other values are those of reset; Running asks
nothing of Idle's. -/
theorem launchMeetsTheInvariant : Obligations.LaunchMeetsTheInvariant := fun c image hwf =>
  { memory := ⟨hwf, Memory.wf_storeBytes Memory.wf_nil c.memSize 0 image,
      Memory.storeBytes_below (List.forall_mem_nil _) 0 image⟩
    pc := Nat.zero_le _
    flags := .inl rfl
    faultRecord := ⟨fun _ => ⟨rfl, rfl, rfl, rfl⟩, nofun⟩
    output := nofun
    idle := nofun }

/-! ### Boot -/

/-- A machine on its way from reset to launch: memory holds `m`, the host will drive `pins`, all else is at reset. -/
def State.booting (c : Config) (m : Memory) (pins : List Pins) : State :=
  { State.resetWith c with mem := m, pins := pins }

theorem Pins.ldAddr_load {addr : Nat} (v : Byte) (h : addr < 256) : (Pins.load addr v).ldAddr.toNat = addr :=
  Nat.mod_eq_of_lt h

/-- A load write below N is one write of memory (40_engine.md R80). -/
theorem step_booting_load {c : Config} (hwf : c.wf = true) {addr : Nat} (haddr : addr < c.memSize) (m : Memory)
    (v : Byte) (pins : List Pins) :
    step (State.booting c m (Pins.load addr v :: pins)) = .next (State.booting c (m.write addr v) pins) := by
  have hlegal := (config_wf_iff.1 hwf).2
  have hedge := idleEdgeLoadsAndStarts (State.booting c m (Pins.load addr v :: pins)) ⟨hwf, rfl⟩ rfl
  have hpin : (State.booting c m (Pins.load addr v :: pins)).nextPins.ldAddr.toNat = addr :=
    Pins.ldAddr_load v (by omega)
  rw [hpin, if_pos ⟨rfl, haddr⟩] at hedge
  exact hedge

/-- A start leaves memory as it was loaded (40_engine.md R80). -/
theorem step_booting_begin {c : Config} (hwf : c.wf = true) (m : Memory) :
    step (State.booting c m [Pins.begin]) = .next { State.resetWith c with mem := m, status := .running } :=
  idleEdgeLoadsAndStarts (State.booting c m [Pins.begin]) ⟨hwf, rfl⟩ rfl

theorem run_succ_of_step {M : Host.Core} {s t : M.State} (h : M.step s = .next t) (k : Nat) :
    M.run (k + 1) s = M.run k t := by
  rw [Host.Core.run, h]

/-- Loading an image that fits below N stores its bytes one after the other, from any address and into any memory. -/
theorem run_booting {c : Config} (hwf : c.wf = true) (image : List Byte) (m : Memory) (addr : Nat)
    (hfit : addr + image.length ≤ c.memSize) :
    Host.Core.run Sys2Proof.core (image.length + 1) (State.booting c m (loadPins addr image ++ [Pins.begin])) =
      .next { State.resetWith c with mem := storeBytes c.memSize m addr image, status := .running } := by
  induction image generalizing m addr with
  | nil => exact run_succ_of_step (step_booting_begin hwf m) 0
  | cons v rest ih =>
    rw [List.length_cons] at hfit
    have haddr : addr < c.memSize := by omega
    rw [storeBytes, if_pos haddr, ← ih (m.write addr v) (addr + 1) (by omega)]
    exact run_succ_of_step (step_booting_load hwf haddr m v _) _

/-- Settles O20: a boot loads the image from address 0 into the empty memory that reset left. -/
theorem bootReachesTheLaunchState : Obligations.BootReachesTheLaunchState := fun _ image hwf hfit =>
  run_booting hwf image [] 0 (by rwa [Nat.zero_add])

/-! ### Reset -/

/-- The stack pointer is the one register reset leaves at another value than 0x00 (70_reset_and_hazards.md R118). -/
theorem State.reg_resetWith_other (c : Config) {r : Fin 8} (h : r ≠ spIndex) : (State.resetWith c).reg r = 0x00#8 := by
  have hset : State.resetWith c =
      State.setReg { State.resetWith c with regs := Vector.replicate 8 0x00#8 } spIndex c.spInit := rfl
  rw [hset, State.reg_setReg_other _ _ h]
  exact Vector.getElem_replicate r.isLt

/-- Settles O11: the edge is `applyReset`, whose fields are the table's. -/
theorem resetSetsEveryListedValue : Obligations.ResetSetsEveryListedValue := fun s hwf hrst =>
  ⟨_, step_reset hwf hrst, rfl, rfl, fun _ hr => State.reg_resetWith_other s.cfg hr, rfl, rfl, Memory.read_nil,
    rfl, rfl, rfl, rfl, rfl, rfl⟩

/-- Settles O14: a reset keeps the inputs to come, so the state it leaves before `pins` is `applyReset` of itself. -/
theorem resetMeetsTheInvariant : Obligations.ResetMeetsTheInvariant := fun c pins hwf =>
  applyReset_inv (s := { State.resetWith c with pins := pins }) hwf

/-! ### Register 7 as the operand -/

/-- PUSH R7 stores what the decrement left. -/
theorem execPush_sp {s : State} (hm : s.mem.wf = true) (hsp : s.sp ≠ 0#8) (hn : s.pushAddr < s.cfg.memSize) :
    ∃ t, execPush 7#8 s = .next t ∧ t.sp = s.sp - 1#8 ∧ t.mem.read s.pushAddr = s.sp - 1#8 :=
  ⟨_, execPush_ok (by decide) hsp hn, afterPush_sp s fun s₁ => s₁.sp,
    (afterPush_read hm fun s₁ => s₁.sp).trans (State.sp_setReg_sp s _)⟩

/-- CALL R7 jumps to where the decrement left the stack pointer, the cell of the return byte. -/
theorem execCall_sp {s : State} (hsp : s.sp ≠ 0#8) (hn : s.pushAddr < s.cfg.memSize) :
    ∃ t, execCall 7#8 s = .next t ∧ t.sp = s.sp - 1#8 ∧ t.pc.toNat = s.pushAddr := by
  refine ⟨_, execCall_ok (by decide) hsp hn, afterPush_sp s fun _ => returnByte s.pc, (zext9_toNat _).trans ?_⟩
  exact congrArg BitVec.toNat (State.sp_setReg_sp s _)

/-- POP R7 increments the byte it popped. -/
theorem execPop_sp {s : State} (hsp : s.sp ≠ s.cfg.spInit) (hn : s.sp.toNat < s.cfg.memSize) :
    ∃ t, execPop 7#8 s = .next t ∧ t.sp = s.mem.read s.sp.toNat + 1#8 := by
  refine ⟨_, execPop_ok (by decide) hsp hn, (State.sp_setReg_sp _ _).trans ?_⟩
  exact congrArg (· + 1#8) (State.sp_setReg_sp s _)

/-- Settles O44: each of the three instructions on the stack pointer itself; the statement's x[7] - 1 is the push address. -/
theorem statementOrderShowsOnRegister7 : Obligations.StatementOrderShowsOnRegister7 := by
  constructor
  · intro s hm hsp hn
    have haddr : s.pushAddr = s.regs[7].toNat - 1 := State.pushAddr_eq hsp
    rw [← haddr] at hn ⊢
    exact ⟨execPush_sp hm hsp hn, execCall_sp hsp hn⟩
  · intro s hsp hn
    exact execPop_sp hsp hn

end Sys2Proof.Machine
end
